-- ==== Sys2Proof/Word.lean ====
section
/-! DEFINITION. The word types of the core (spec/00_scope.md R6, R8, R9): every value is an unsigned number of a stated width. -/

namespace Sys2Proof

/-- A byte: a memory cell, a V register, a timer (R6: `REG_W`, `TIMER_W`). -/
abbrev Byte := BitVec 8

/-- A 16-bit word: an opcode, `PC`, `I`, a stack entry (R6: `I_W`, `PC_W`). -/
abbrev Word := BitVec 16

/-- A 4-bit field of an opcode (R12 Nibble). -/
abbrev Nibble := BitVec 4

/-- The number of a general register, 0 to 15: a 4-bit field is never out of range (spec/10_state.md R21). -/
abbrev RegNum := BitVec 4

/-- A 12-bit absolute address operand `NNN` (spec/30_encoding.md R72). -/
abbrev Addr := BitVec 12

end Sys2Proof
end

