-- ==== Sys2Proof/Config.lean ====
section
/-! DEFINITION. What the spec leaves free (spec/00_scope.md R7, spec/93_implementation_defined.md U7, U13): the two inputs of a cycle.
The third parameter, `FONT`, has a default in the spec and stands in Sys2Proof/Machine/Font.lean; the fourth, `IMAGE`, is an argument of `State.load`. -/

namespace Sys2Proof

/-- The keypad snapshot the host supplies with the `n`-th cycle (spec/10_state.md R29): a free value, bit `k` is key `k`.
It has no body, so a claim that holds of the step holds for every sequence of snapshots. Log entry 1. -/
opaque Config.keySnapshot : Nat → BitVec 16

/-- The `n`-th byte drawn from the randomness source (spec/10_state.md R31, spec/42_alu.md R153): a free value. Log entry 2. -/
opaque Config.randomByte : Nat → BitVec 8

end Sys2Proof
end

