-- ==== Sys2Proof/Syntax.lean ====
section
/-! DEFINITION. The instruction set: one constructor per row of spec/opcode_table.json, 34 instructions and the no-op (spec/30_encoding.md R78, R79, R85).
Bits that the decoder and the handler ignore are kept as a last field, `ign`, so that an instruction stands for exactly one word (log entry 12). -/

namespace Sys2Proof

/-- The instructions of the core. `x` and `y` are register numbers, `kk` a byte, `n` a nibble, `nnn` a 12-bit address (R71, R72). -/
inductive Instr where
  /-- `00E0` CLS, words `0??0`; `ign` is `op[11:4]` (spec/44_display.md R190). -/
  | cls (ign : Byte)
  /-- `00EE` RET, words `0??E`; `ign` is `op[11:4]` (spec/41_control_flow.md R120). -/
  | ret (ign : Byte)
  /-- `1nnn` JP addr (R121). -/
  | jp (nnn : Addr)
  /-- `2nnn` CALL addr (R122). -/
  | call (nnn : Addr)
  /-- `3xkk` SE Vx, byte (R123). -/
  | seByte (x : RegNum) (kk : Byte)
  /-- `4xkk` SNE Vx, byte (R124). -/
  | sneByte (x : RegNum) (kk : Byte)
  /-- `5xy0` SE Vx, Vy, words `5xy?`; `ign` is `op[3:0]` (R125). -/
  | seReg (x y : RegNum) (ign : Nibble)
  /-- `6xkk` LD Vx, byte (spec/42_alu.md R142). -/
  | ldByte (x : RegNum) (kk : Byte)
  /-- `7xkk` ADD Vx, byte (R143). -/
  | addByte (x : RegNum) (kk : Byte)
  /-- `8xy0` LD Vx, Vy (R144). -/
  | ldReg (x y : RegNum)
  /-- `8xy1` OR Vx, Vy (R145). -/
  | orReg (x y : RegNum)
  /-- `8xy2` AND Vx, Vy (R146). -/
  | andReg (x y : RegNum)
  /-- `8xy3` XOR Vx, Vy (R147). -/
  | xorReg (x y : RegNum)
  /-- `8xy4` ADD Vx, Vy (R148). -/
  | addReg (x y : RegNum)
  /-- `8xy5` SUB Vx, Vy (R149). -/
  | subReg (x y : RegNum)
  /-- `8xy6` SHR Vx; `y` is encoded and not used (R150). -/
  | shr (x y : RegNum)
  /-- `8xy7` SUBN Vx, Vy (R151). -/
  | subn (x y : RegNum)
  /-- `8xyE` SHL Vx; `y` is encoded and not used (R152). -/
  | shl (x y : RegNum)
  /-- `9xy0` SNE Vx, Vy, words `9xy?`; `ign` is `op[3:0]` (R126). -/
  | sneReg (x y : RegNum) (ign : Nibble)
  /-- `Annn` LD I, addr (spec/43_index_and_memory.md R170). -/
  | ldI (nnn : Addr)
  /-- `Bnnn` JP V0, addr (R128). -/
  | jpV0 (nnn : Addr)
  /-- `Cxkk` RND Vx, byte (R153). -/
  | rnd (x : RegNum) (kk : Byte)
  /-- `Dxyn` DRW Vx, Vy, nibble (spec/44_display.md R192). -/
  | drw (x y : RegNum) (n : Nibble)
  /-- `Ex9E` SKP Vx, words `Ex?E`; `ign` is `op[7:4]` (spec/45_keypad_and_timers.md R200). -/
  | skp (x : RegNum) (ign : Nibble)
  /-- `ExA1` SKNP Vx, words `Ex?1`; `ign` is `op[7:4]` (R201). -/
  | sknp (x : RegNum) (ign : Nibble)
  /-- `Fx07` LD Vx, DT (R203). -/
  | ldVxDt (x : RegNum)
  /-- `Fx0A` LD Vx, K (R202). -/
  | ldVxK (x : RegNum)
  /-- `Fx15` LD DT, Vx (R204). -/
  | ldDtVx (x : RegNum)
  /-- `Fx18` LD ST, Vx (R205). -/
  | ldStVx (x : RegNum)
  /-- `Fx1E` ADD I, Vx (R171). -/
  | addI (x : RegNum)
  /-- `Fx29` LD F, Vx (R173). -/
  | ldF (x : RegNum)
  /-- `Fx33` LD B, Vx (R174). -/
  | ldB (x : RegNum)
  /-- `Fx55` LD [I], Vx: store `V0` to `Vx` (R175). -/
  | storeRegs (x : RegNum)
  /-- `Fx65` LD Vx, [I]: load `V0` to `Vx` (R176). -/
  | loadRegs (x : RegNum)
  /-- The no-op: every word `w` that no other row matches (spec/40_cycle_and_dispatch.md R104, spec/30_encoding.md R79). -/
  | nop (w : Word)
deriving DecidableEq, Repr

end Sys2Proof
end

