-- ==== Sys2Proof/Decode.lean ====
section
/-! DEFINITION. The decoder: the two-level dispatch of spec/30_encoding.md R73 to R77, written as the procedure of R82, and after it
the encoder from the formats of R71. Both work on the 16-bit word; bytes are read most significant first (R70). -/

namespace Sys2Proof

/-! ## Fields of an opcode (spec/00_scope.md R8, spec/90_conflicts.md C2) -/

/-- `T = op[15:12]`, the primary dispatch key. -/
def opT (op : Word) : Nibble := op.extractLsb' 12 4
/-- `X = op[11:8]`. -/
def opX (op : Word) : RegNum := op.extractLsb' 8 4
/-- `Y = op[7:4]`. -/
def opY (op : Word) : RegNum := op.extractLsb' 4 4
/-- `N = op[3:0]`. -/
def opN (op : Word) : Nibble := op.extractLsb' 0 4
/-- `KK = op[7:0]`. -/
def opKK (op : Word) : Byte := op.extractLsb' 0 8
/-- `NNN = op[11:0]`. -/
def opNNN (op : Word) : Addr := op.extractLsb' 0 12
/-- `op[11:4]`, which family 0 ignores (R74). -/
def opMid (op : Word) : Byte := op.extractLsb' 4 8

/-! ## The decoder -/

/-- Secondary table 0, keyed by `op[3:0]` (R74). -/
def decode0 (op : Word) : Instr :=
  match opN op with
  | 0x0 => .cls (opMid op)
  | 0xE => .ret (opMid op)
  | _ => .nop op

/-- Secondary table 8, keyed by `op[3:0]` (R75). -/
def decode8 (op : Word) : Instr :=
  match opN op with
  | 0x0 => .ldReg (opX op) (opY op)
  | 0x1 => .orReg (opX op) (opY op)
  | 0x2 => .andReg (opX op) (opY op)
  | 0x3 => .xorReg (opX op) (opY op)
  | 0x4 => .addReg (opX op) (opY op)
  | 0x5 => .subReg (opX op) (opY op)
  | 0x6 => .shr (opX op) (opY op)
  | 0x7 => .subn (opX op) (opY op)
  | 0xE => .shl (opX op) (opY op)
  | _ => .nop op

/-- Secondary table E, keyed by `op[3:0]` (R76). -/
def decodeE (op : Word) : Instr :=
  match opN op with
  | 0x1 => .sknp (opX op) (opY op)
  | 0xE => .skp (opX op) (opY op)
  | _ => .nop op

/-- Secondary table F, keyed by `op[7:0]` (R77). -/
def decodeF (op : Word) : Instr :=
  match opKK op with
  | 0x07 => .ldVxDt (opX op)
  | 0x0A => .ldVxK (opX op)
  | 0x15 => .ldDtVx (opX op)
  | 0x18 => .ldStVx (opX op)
  | 0x1E => .addI (opX op)
  | 0x29 => .ldF (opX op)
  | 0x33 => .ldB (opX op)
  | 0x55 => .storeRegs (opX op)
  | 0x65 => .loadRegs (opX op)
  | _ => .nop op

/-- The decoder (R82), total on all 65536 words: the primary table, keyed by `op[15:12]` (R73). -/
def decodeWord (op : Word) : Instr :=
  match opT op with
  | 0x0 => decode0 op
  | 0x1 => .jp (opNNN op)
  | 0x2 => .call (opNNN op)
  | 0x3 => .seByte (opX op) (opKK op)
  | 0x4 => .sneByte (opX op) (opKK op)
  | 0x5 => .seReg (opX op) (opY op) (opN op)
  | 0x6 => .ldByte (opX op) (opKK op)
  | 0x7 => .addByte (opX op) (opKK op)
  | 0x8 => decode8 op
  | 0x9 => .sneReg (opX op) (opY op) (opN op)
  | 0xA => .ldI (opNNN op)
  | 0xB => .jpV0 (opNNN op)
  | 0xC => .rnd (opX op) (opKK op)
  | 0xD => .drw (opX op) (opY op) (opN op)
  | 0xE => decodeE op
  | _ => decodeF op

/-! ## Bytes -/

/-- The big-endian word of two bytes, the first at the lower address (spec/20_memory.md R52). -/
def wordOfBytes (hi lo : Byte) : Word := hi ++ lo

/-- The byte stored at the lower address (R52). -/
def hiByte (w : Word) : Byte := w.extractLsb' 8 8

/-- The byte stored at the higher address (R52). -/
def loByte (w : Word) : Byte := w.extractLsb' 0 8

/-- Why a sequence of bytes is not an instruction: fewer than two bytes are left (R70: every instruction is exactly 2 bytes). -/
inductive DecodeError where
  /-- Raised by `decode` on fewer than two bytes; never by the machine, whose fetch always reads two (safe). -/
  | truncated
deriving DecidableEq, Repr

/-- Read one instruction from a sequence of bytes and give back the rest. No word is rejected: an undefined one is the no-op (R79). -/
def decode : List Byte → Except DecodeError (Instr × List Byte)
  | hi :: lo :: rest => .ok (decodeWord (wordOfBytes hi lo), rest)
  | _ => .error .truncated

/-- The bytes of an instruction given as the opcode table numbers its bits: the table's row is one 16-bit word, stored most significant
byte first (R70, R85); bits from `nbits` up are 0. -/
def tableBytes (nbits w : Nat) : List Byte :=
  let op : Word := BitVec.ofNat 16 (w % 2 ^ nbits)
  [hiByte op, loByte op]

/-- What the decoder reads from such an instruction; `none` for a row longer than any instruction of this machine. -/
def decodeTableWord (nbits w : Nat) : Option Instr :=
  if nbits ≤ 16 then
    match decode (tableBytes nbits w) with
    | .ok (i, _) => some i
    | .error _ => none
  else none

/-! ## The encoder (R71, R78) -/

/-- Format `Z`: `T = 0`, ignored bits, sub-opcode nibble. -/
def encodeZ (ign : Byte) (n : Nibble) : Word := 0x0#4 ++ ign ++ n
/-- Format `A`: `T`, `NNN`. -/
def encodeA (t : Nibble) (nnn : Addr) : Word := t ++ nnn
/-- Format `XK`: `T`, `X`, `KK`; format `XS` of family F, whose low byte is the sub-opcode, has the same shape. -/
def encodeXK (t : Nibble) (x : RegNum) (kk : Byte) : Word := t ++ x ++ kk
/-- Format `XY`: `T`, `X`, `Y`, `N`; format `XS` of family E has the same shape. -/
def encodeXY (t : Nibble) (x y : RegNum) (n : Nibble) : Word := t ++ x ++ y ++ n

/-- The word of an instruction. -/
def encode : Instr → Word
  | .cls ign => encodeZ ign 0x0
  | .ret ign => encodeZ ign 0xE
  | .jp nnn => encodeA 0x1 nnn
  | .call nnn => encodeA 0x2 nnn
  | .seByte x kk => encodeXK 0x3 x kk
  | .sneByte x kk => encodeXK 0x4 x kk
  | .seReg x y ign => encodeXY 0x5 x y ign
  | .ldByte x kk => encodeXK 0x6 x kk
  | .addByte x kk => encodeXK 0x7 x kk
  | .ldReg x y => encodeXY 0x8 x y 0x0
  | .orReg x y => encodeXY 0x8 x y 0x1
  | .andReg x y => encodeXY 0x8 x y 0x2
  | .xorReg x y => encodeXY 0x8 x y 0x3
  | .addReg x y => encodeXY 0x8 x y 0x4
  | .subReg x y => encodeXY 0x8 x y 0x5
  | .shr x y => encodeXY 0x8 x y 0x6
  | .subn x y => encodeXY 0x8 x y 0x7
  | .shl x y => encodeXY 0x8 x y 0xE
  | .sneReg x y ign => encodeXY 0x9 x y ign
  | .ldI nnn => encodeA 0xA nnn
  | .jpV0 nnn => encodeA 0xB nnn
  | .rnd x kk => encodeXK 0xC x kk
  | .drw x y n => encodeXY 0xD x y n
  | .skp x ign => encodeXY 0xE x ign 0xE
  | .sknp x ign => encodeXY 0xE x ign 0x1
  | .ldVxDt x => encodeXK 0xF x 0x07
  | .ldVxK x => encodeXK 0xF x 0x0A
  | .ldDtVx x => encodeXK 0xF x 0x15
  | .ldStVx x => encodeXK 0xF x 0x18
  | .addI x => encodeXK 0xF x 0x1E
  | .ldF x => encodeXK 0xF x 0x29
  | .ldB x => encodeXK 0xF x 0x33
  | .storeRegs x => encodeXK 0xF x 0x55
  | .loadRegs x => encodeXK 0xF x 0x65
  | .nop w => w

/-- The two bytes of an instruction in memory order (R70). -/
def encodeBytes (i : Instr) : List Byte := [hiByte (encode i), loByte (encode i)]

end Sys2Proof
end

