-- ==== Sys2Proof/Machine/State.lean ====
section
/-! DEFINITION. The state of the core: every item of spec/10_state.md R20, the two inputs of the cycle in progress, and two counters of the model's own. -/

namespace Sys2Proof.Machine

/-- Why a step could stop in a fault: nothing. Each of the five faults of spec/60_exceptions.md R220 is TAKEN, as R226 describes its entry: the next
state has `ERR` set and is otherwise unchanged. So no constructor, and no step ends in `Host.Outcome.fault` (log entry 5). -/
inductive Fault where
deriving DecidableEq, Repr

/-- Why a step could be refused. -/
inductive Refusal where
  /-- Raised only by an arm of `exec` whose instruction has no meaning yet; there is none (safe: the machine stops). -/
  | notModelled (mnemonic : String)
deriving DecidableEq, Repr

/-- The field `code` of the fault latch: no fault, or one of the five causes (spec/60_exceptions.md R220). -/
inductive ErrCode where
  /-- Code 0: no fault since reset. -/
  | noFault
  /-- Code 1: a call with a full stack (R221). -/
  | stackOverflow
  /-- Code 2: a return with an empty stack (R222). -/
  | stackUnderflow
  /-- Code 3: a data access at 4096 or above (R223). -/
  | memRange
  /-- Code 4: a fetch with `PC > 0x0FFE` (R224). -/
  | fetchRange
  /-- Code 5: a key number above 15 (R225). -/
  | keyRange
deriving DecidableEq, Repr

/-- The fault latch `ERR` (spec/10_state.md R32). -/
structure Err where
  /-- The cause. -/
  code : ErrCode
  /-- `PC` at the start of the faulting cycle. -/
  epc : Word
  /-- The opcode of the faulting cycle, `0x0000` for a fetch fault. -/
  eop : Word
  /-- The cause-specific value of R220. -/
  info : Word
deriving DecidableEq, Repr

/-- The latch when no fault has occurred: all fields 0 (R32). -/
def Err.clear : Err := { code := .noFault, epc := 0, eop := 0, info := 0 }

/-- The state of the core. -/
structure State where
  /-- `V[0..15]`, the general registers; `V[15]` is `VF` (R21, R22). -/
  v : Vector Byte 16
  /-- `I`, the index register (R23). -/
  i : Word
  /-- `PC` (R24). -/
  pc : Word
  /-- `MEM[0..4095]` (R25): the cells that differ from the reset contents, addresses strictly rising. -/
  mem : List Host.Cell
  /-- `STACK[0..15]` (R26). -/
  stack : Vector Word 16
  /-- `SP`, the number of stack entries in use, 0 to 16 (R26). -/
  sp : Fin 17
  /-- `DT`, the delay timer (R27). -/
  dt : Byte
  /-- `ST`, the sound timer (R27). -/
  st : Byte
  /-- `FB`: row `y`, then column `x`; `true` is on (R28). -/
  fb : Vector (Vector Bool 64) 32
  /-- `KEYS`, the snapshot of this cycle (R29): bit `k` is key `k`, 1 when pressed. An input: a cycle overwrites it before anything reads it. -/
  keys : BitVec 16
  /-- `OPCODE`, the word fetched this cycle (R30). -/
  opcode : Word
  /-- `ERR`, the fault latch (R32). -/
  err : Err
  /-- `RND`, the byte this cycle's draw would give (R31). An input: a cycle overwrites it before anything reads it. -/
  rnd : Byte
  /-- The model's own: how many key snapshots have been supplied, the index of the next one (log entry 1). -/
  samples : Nat
  /-- The model's own: how many random bytes have been drawn, the index of the next one (log entry 2). -/
  draws : Nat
deriving DecidableEq, Repr

/-- The state after reset (R35, spec/70_reset_and_hazards.md R250 to R252): everything zero, `PC = 0x200`, the font in memory
(the reset contents are what unlisted addresses read as). -/
def State.reset : State where
  v := Vector.replicate 16 0
  i := 0
  pc := 0x200
  mem := []
  stack := Vector.replicate 16 0
  sp := 0
  dt := 0
  st := 0
  fb := Vector.replicate 32 (Vector.replicate 64 false)
  keys := 0
  opcode := 0
  err := Err.clear
  rnd := 0
  samples := 0
  draws := 0

end Sys2Proof.Machine
end

