-- ==== Sys2Proof/Machine/Ops.lean ====
section
/-! DEFINITION. The named operations over memory, registers, call stack, framebuffer, timers and fault latch: the primitives of spec/00_scope.md R10. -/

namespace Sys2Proof.Machine

/-! ## Memory (spec/20_memory.md) -/

/-- `MEM`, as State holds it: (address, byte) pairs in one canonical form, `Memory.wf`. -/
abbrev Memory := List Host.Cell

/-- `MEM_SIZE` (R6, R50). -/
def memSize : Nat := 4096

/-- What an address that is not listed reads as: the reset contents, `FONT` at `0x050..0x09F` and zero elsewhere (R51). -/
def Memory.initial (a : Nat) : Byte :=
  if fontBase ≤ a ∧ a < fontBase + fontSize then defaultFont.getD (a - fontBase) 0 else 0

/-- The byte at an address (R10 `MemRead(addr, 1)`). Every use is behind a range test, so `a < 4096` (log entry 14). -/
def Memory.read : Memory → Nat → Byte
  | [], a => Memory.initial a
  | (b, w) :: m, a => if a = b then w else Memory.read m a

/-- Put a cell into its place, or take it out where the value is the reset contents. -/
def Memory.insert : Memory → Nat → Byte → Memory
  | [], a, v => if v = Memory.initial a then [] else [(a, v)]
  | (b, w) :: m, a, v =>
    if a < b then (if v = Memory.initial a then (b, w) :: m else (a, v) :: (b, w) :: m)
    else if a = b then (if v = Memory.initial a then m else (a, v) :: m)
    else (b, w) :: Memory.insert m a v

/-- Store a byte (R10 `MemWrite(addr, 1, v)`). Every store of an instruction is behind a range test; an address outside memory holds nothing. -/
def Memory.write (m : Memory) (a : Nat) (v : Byte) : Memory :=
  if a < memSize then Memory.insert m a v else m

/-- Store bytes at ascending addresses from `a`. -/
def Memory.writeBytes : Memory → Nat → List Byte → Memory
  | m, _, [] => m
  | m, a, b :: bs => Memory.writeBytes (Memory.write m a b) (a + 1) bs

/-- Read `n` bytes at ascending addresses from `a`. -/
def Memory.readBytes (m : Memory) (a : Nat) : Nat → List Byte
  | 0 => []
  | n + 1 => Memory.read m a :: Memory.readBytes m (a + 1) n

/-- The canonical form from address `lo` up: addresses strictly rising, below 4096, no entry equal to the reset contents. -/
def Memory.wfFrom (lo : Nat) : Memory → Bool
  | [] => true
  | (a, v) :: m => decide (lo ≤ a) && decide (a < memSize) && v != Memory.initial a && Memory.wfFrom (a + 1) m

/-- The canonical form of memory: equal memories are equal lists. -/
def Memory.wf (m : Memory) : Bool := Memory.wfFrom 0 m

/-! ## Registers (spec/10_state.md R21) -/

/-- `V[i]`. -/
def State.reg (s : State) (x : RegNum) : Byte := s.v[x.toNat]'x.isLt

/-- `V[i] <- b`. -/
def State.setReg (s : State) (x : RegNum) (b : Byte) : State := { s with v := s.v.set x.toNat b x.isLt }

/-- The number of `VF`, `V[15]` (R21). -/
def regF : RegNum := 0xF

/-- `V[0..n-1]`, in ascending order. -/
def State.firstRegs (s : State) (n : Nat) : List Byte := s.v.toList.take n

/-- `V[k] <- MEM[a + k]` for `k` from 0 to `n - 1`, ascending (spec/43_index_and_memory.md R176). -/
def State.loadFirstRegs (s : State) (a : Nat) : Nat → State
  | 0 => s
  | n + 1 => (s.loadFirstRegs a n).setReg (BitVec.ofNat 4 n) (Memory.read s.mem (a + n))

/-! ## Call stack (R26) -/

/-- `STACK[SP] <- w; SP <- SP + 1`, which needs `SP <= 15`; `none` when the stack is full. -/
def State.push (s : State) (w : Word) : Option State :=
  if h : s.sp.val < 16 then
    some { s with stack := s.stack.set s.sp.val w h, sp := ⟨s.sp.val + 1, by omega⟩ }
  else none

/-- `SP <- SP - 1`, then `STACK[SP]`, which needs `SP >= 1`; the entry is not cleared. `none` when the stack is empty. -/
def State.pop (s : State) : Option (Word × State) :=
  if h : 0 < s.sp.val then
    some (s.stack[s.sp.val - 1]'(by omega), { s with sp := ⟨s.sp.val - 1, by omega⟩ })
  else none

/-! ## Keypad (R29) -/

/-- `KEYS[k]`: whether key `k` is pressed in this cycle's snapshot. -/
def State.key (s : State) (k : Nat) : Bool := s.keys.getLsbD k

/-- The least `k` with `KEYS[k] = 1`, scanning 0 to 15 (spec/45_keypad_and_timers.md R202). -/
def State.lowestKey (s : State) : Option Nat := (List.range 16).find? s.key

/-! ## Framebuffer (R28, spec/44_display.md) -/

/-- `FB`: 32 rows of 64 pixels. -/
abbrev Screen := Vector (Vector Bool 64) 32

/-- A screen with every pixel off. -/
def Screen.blank : Screen := Vector.replicate 32 (Vector.replicate 64 false)

/-- `FB[y][x]`. -/
def Screen.pixel (fb : Screen) (y : Fin 32) (x : Fin 64) : Bool := fb[y][x]

/-- `FB[y][x] <- FB[y][x] xor 1`. -/
def Screen.toggle (fb : Screen) (y : Fin 32) (x : Fin 64) : Screen := fb.set y (fb[y].set x (!fb[y][x]))

/-- A row number with wraparound, modulo the height (R192). -/
def wrapRow (y : Nat) : Fin 32 := ⟨y % 32, Nat.mod_lt _ (by decide)⟩

/-- A column number with wraparound, modulo the width (R192). -/
def wrapCol (x : Nat) : Fin 64 := ⟨x % 64, Nat.mod_lt _ (by decide)⟩

/-- One sprite pixel, already known to be set: the collision test, then the XOR (R192). The flag is cumulative. -/
def Screen.plot (p : Screen × Bool) (y : Fin 32) (x : Fin 64) : Screen × Bool :=
  (Screen.toggle p.1 y x, p.2 || Screen.pixel p.1 y x)

/-- Columns 0 to `n - 1` of one sprite row with byte `b` at origin (`x0`, row `y`): column `c` is bit `7 - c`, and the column wraps (R191, R192). -/
def Screen.drawCols (b : Byte) (x0 y : Nat) : Nat → Screen × Bool → Screen × Bool
  | 0, p => p
  | c + 1, p =>
    let q := Screen.drawCols b x0 y c p
    if b.getLsbD (7 - c) then Screen.plot q (wrapRow y) (wrapCol (x0 + c)) else q

/-- The rows of a sprite, from row `y` down; the row number wraps (R192). -/
def Screen.drawRows (x0 : Nat) : Nat → List Byte → Screen × Bool → Screen × Bool
  | _, [], p => p
  | y, b :: bs, p => Screen.drawRows x0 (y + 1) bs (Screen.drawCols b x0 y 8 p)

/-! ## Timers (R27) -/

/-- One decrement, floored at zero. -/
def tickByte (b : Byte) : Byte := if b = 0 then 0 else b - 1

/-- The tick at the end of a cycle (spec/40_cycle_and_dispatch.md R105). -/
def State.tick (s : State) : State := { s with dt := tickByte s.dt, st := tickByte s.st }

/-! ## Taking a fault (spec/60_exceptions.md R220, R226; spec/40_cycle_and_dispatch.md R106) -/

/-- A handler raises a fault: `ERR` gets the cause, the address of the faulting instruction, its word and the cause's value, and the `PC`
advance the cycle made before the handler is undone. Control goes nowhere: there is no handler address (R226). -/
def State.raise (s : State) (c : ErrCode) (info : Word) : State :=
  { s with pc := s.pc - 2, err := { code := c, epc := s.pc - 2, eop := s.opcode, info := info } }

/-- The fetch raises `FetchRange` before anything changes (R224). -/
def State.raiseFetch (s : State) : State :=
  { s with err := { code := .fetchRange, epc := s.pc, eop := 0, info := s.pc } }

/-- After a fault the core is halted (R227). Only reset leaves this condition: the machine has no return from a fault. -/
def State.halted (s : State) : Bool := s.err.code != .noFault

/-! ## The cycle around the handler (spec/40_cycle_and_dispatch.md) -/

/-- Whether the fetch needs a byte outside memory (R57, R101). -/
def State.fetchOutOfRange (s : State) : Bool := decide (0x0FFE < s.pc.toNat)

/-- `MemRead(PC, 2)`: the big-endian word at `PC` (R101). -/
def State.fetchWord (s : State) : Word :=
  wordOfBytes (Memory.read s.mem s.pc.toNat) (Memory.read s.mem (s.pc.toNat + 1))

/-- The cycle's inputs are sampled, the word at `PC` is fetched into `OPCODE`, and `PC` advances by 2 (R100 to R102). -/
def State.beginCycle (s : State) (keys : BitVec 16) (rnd : Byte) : State :=
  { s with keys := keys, rnd := rnd, samples := s.samples + 1, opcode := s.fetchWord, pc := s.pc + 2 }

/-- The end of a cycle that began in `s` and whose handler left `t`: the timer tick (R105), or, where the handler raised a fault, the
abandoned cycle: everything as it was in `s` but `ERR` (R106). -/
def State.finishCycle (s t : State) : State :=
  if t.halted then { s with err := t.err } else t.tick

end Sys2Proof.Machine
end

