-- ==== Sys2Proof/Machine/Flags.lean ====
section
/-! DEFINITION. The flag computations: what the five flag-writing ALU instructions and the draw put into `VF` (spec/10_state.md R22). -/

namespace Sys2Proof.Machine

/-- A flag as the byte `VF` receives: 1 or 0. -/
def flagByte (c : Bool) : Byte := if c then 1 else 0

/-- `VF <- c`. -/
def State.setFlag (s : State) (c : Bool) : State := s.setReg regF (flagByte c)

/-- The 9-bit sum of two bytes, 0 to 510 (spec/42_alu.md R148). -/
def sum9 (a b : Byte) : Nat := a.toNat + b.toNat

/-- The carry of `8xy4`: the 9-bit sum exceeds 255 (R148). -/
def carryOut (a b : Byte) : Bool := decide (255 < sum9 a b)

/-- The flag of `8xy5` and `8xy7`: the minuend is strictly greater than the subtrahend (R149, R151, spec/90_conflicts.md C4). -/
def strictlyGreater (a b : Byte) : Bool := decide (b.toNat < a.toNat)

/-- The bit `8xy6` shifts out: bit 0 (R150). -/
def lowBit (a : Byte) : Bool := a.getLsbD 0

/-- The bit `8xyE` shifts out: bit 7 (R152). -/
def highBit (a : Byte) : Bool := a.getLsbD 7

end Sys2Proof.Machine
end

