-- ==== Sys2Proof/Machine/Alu.lean ====
section
/-! DEFINITION. Register loads, arithmetic, logic, shifts and the random byte (spec/42_alu.md). The flag-writing instructions write `VF` first and
compute the result from the registers as they then stand, but for `8xy4`, whose sum is formed first (R141; log entry 10). -/

namespace Sys2Proof.Machine

/-- `6xkk` LD Vx, byte (R142). -/
def execLdByte (x : RegNum) (kk : Byte) (s : State) : Host.Outcome State Fault Refusal :=
  .next (s.setReg x kk)

/-- `7xkk` ADD Vx, byte (R143): modulo 256, no flag. -/
def execAddByte (x : RegNum) (kk : Byte) (s : State) : Host.Outcome State Fault Refusal :=
  .next (s.setReg x (s.reg x + kk))

/-- `8xy0` LD Vx, Vy (R144). -/
def execLdReg (x y : RegNum) (s : State) : Host.Outcome State Fault Refusal :=
  .next (s.setReg x (s.reg y))

/-- `8xy1` OR Vx, Vy (R145): no flag. -/
def execOrReg (x y : RegNum) (s : State) : Host.Outcome State Fault Refusal :=
  .next (s.setReg x (s.reg x ||| s.reg y))

/-- `8xy2` AND Vx, Vy (R146): no flag. -/
def execAndReg (x y : RegNum) (s : State) : Host.Outcome State Fault Refusal :=
  .next (s.setReg x (s.reg x &&& s.reg y))

/-- `8xy3` XOR Vx, Vy (R147): no flag. -/
def execXorReg (x y : RegNum) (s : State) : Host.Outcome State Fault Refusal :=
  .next (s.setReg x (s.reg x ^^^ s.reg y))

/-- `8xy4` ADD Vx, Vy (R148): both operands are read before any write; the result is written last. -/
def execAddReg (x y : RegNum) (s : State) : Host.Outcome State Fault Refusal :=
  .next ((s.setFlag (carryOut (s.reg x) (s.reg y))).setReg x (BitVec.ofNat 8 (sum9 (s.reg x) (s.reg y))))

/-- `8xy5` SUB Vx, Vy (R149): the flag, then the difference of the registers after the flag write. -/
def execSubReg (x y : RegNum) (s : State) : Host.Outcome State Fault Refusal :=
  let t := s.setFlag (strictlyGreater (s.reg x) (s.reg y))
  .next (t.setReg x (t.reg x - t.reg y))

/-- `8xy6` SHR Vx (R150): the flag, then the logical shift of the register after the flag write. -/
def execShr (x : RegNum) (s : State) : Host.Outcome State Fault Refusal :=
  let t := s.setFlag (lowBit (s.reg x))
  .next (t.setReg x (t.reg x >>> 1))

/-- `8xy7` SUBN Vx, Vy (R151): as SUB with the operands swapped; the destination is still `V[X]`. -/
def execSubn (x y : RegNum) (s : State) : Host.Outcome State Fault Refusal :=
  let t := s.setFlag (strictlyGreater (s.reg y) (s.reg x))
  .next (t.setReg x (t.reg y - t.reg x))

/-- `8xyE` SHL Vx (R152): the flag, then the shift of the register after the flag write. -/
def execShl (x : RegNum) (s : State) : Host.Outcome State Fault Refusal :=
  let t := s.setFlag (highBit (s.reg x))
  .next (t.setReg x (t.reg x <<< 1))

/-- `Cxkk` RND Vx, byte (R153): this execution's random byte under the mask; one draw is consumed. -/
def execRnd (x : RegNum) (kk : Byte) (s : State) : Host.Outcome State Fault Refusal :=
  .next { s.setReg x (s.rnd &&& kk) with draws := s.draws + 1 }

end Sys2Proof.Machine
end

