-- ==== Sys2Proof/Machine/Operands.lean ====
section
/-! DEFINITION. The operand forms: `NNN` and byte values as 16-bit numbers (spec/30_encoding.md R72), and blocks of memory at base `I`
with their range test (spec/43_index_and_memory.md R172, spec/20_memory.md R56). -/

namespace Sys2Proof.Machine

/-- `NNN` zero-extended to the 16 bits of `PC` or `I` (R72). -/
def addrWord (nnn : Addr) : Word := nnn.zeroExtend 16

/-- A byte zero-extended to 16 bits (R10 `zext_16`). -/
def byteWord (b : Byte) : Word := b.zeroExtend 16

/-- The range test of a block of `n` bytes at `I`: every address of the unreduced range `I .. I + n - 1` is below 4096; an empty block needs
no address (R56). -/
def State.blockInRange (s : State) (n : Nat) : Bool := decide (n = 0 ∨ s.i.toNat + n ≤ memSize)

/-- `ERR.info` of a `MemRange` fault: the lowest out-of-range address the instruction would have touched, `max(I, 0x1000)` (R56). -/
def State.memRangeInfo (s : State) : Word := if s.i.toNat < 0x1000 then 0x1000 else s.i

/-- An instruction that touches a block of `n` bytes at `I`: `MemRange` before any effect when the test fails, else `t` (R56). -/
def State.withBlock (s : State) (n : Nat) (t : State) : State :=
  if s.blockInRange n then t else s.raise .memRange s.memRangeInfo

/-- A skip: `PC <- PC + 2` on top of the cycle's own advance when the condition holds, else nothing (spec/41_control_flow.md R127). -/
def State.skipIf (s : State) (c : Bool) : State := { s with pc := if c then s.pc + 2 else s.pc }

/-- A skip on key `V[X]`: `KeyRange` when the number is above 15, else a skip when the key is in the wanted position
(spec/45_keypad_and_timers.md R200, R201). -/
def State.skipKey (s : State) (x : RegNum) (pressed : Bool) : State :=
  if 15 < (s.reg x).toNat then s.raise .keyRange (byteWord (s.reg x))
  else s.skipIf (s.key (s.reg x).toNat == pressed)

end Sys2Proof.Machine
end

