-- ==== Sys2Proof/Machine/ControlFlow.lean ====
section
/-! DEFINITION. Control transfer (spec/41_control_flow.md). In a handler `PC` already holds the address of the next sequential instruction (R102). -/

namespace Sys2Proof.Machine

/-- `00EE` RET (R120): pop into `PC`, or `StackUnderflow`. -/
def execRet (s : State) : Host.Outcome State Fault Refusal :=
  .next (match s.pop with
    | some (w, t) => { t with pc := w }
    | none => s.raise .stackUnderflow 0)

/-- `1nnn` JP addr (R121). -/
def execJp (nnn : Addr) (s : State) : Host.Outcome State Fault Refusal :=
  .next { s with pc := addrWord nnn }

/-- `2nnn` CALL addr (R122): push the advanced `PC` and jump, or `StackOverflow` with the target as its value. -/
def execCall (nnn : Addr) (s : State) : Host.Outcome State Fault Refusal :=
  .next (match s.push s.pc with
    | some t => { t with pc := addrWord nnn }
    | none => s.raise .stackOverflow (addrWord nnn))

/-- `3xkk` SE Vx, byte (R123). -/
def execSeByte (x : RegNum) (kk : Byte) (s : State) : Host.Outcome State Fault Refusal :=
  .next (s.skipIf (s.reg x == kk))

/-- `4xkk` SNE Vx, byte (R124). -/
def execSneByte (x : RegNum) (kk : Byte) (s : State) : Host.Outcome State Fault Refusal :=
  .next (s.skipIf (s.reg x != kk))

/-- `5xy0` SE Vx, Vy (R125). -/
def execSeReg (x y : RegNum) (s : State) : Host.Outcome State Fault Refusal :=
  .next (s.skipIf (s.reg x == s.reg y))

/-- `9xy0` SNE Vx, Vy (R126). -/
def execSneReg (x y : RegNum) (s : State) : Host.Outcome State Fault Refusal :=
  .next (s.skipIf (s.reg x != s.reg y))

/-- `Bnnn` JP V0, addr (R128): a 16-bit sum, not masked to 12 bits. -/
def execJpV0 (nnn : Addr) (s : State) : Host.Outcome State Fault Refusal :=
  .next { s with pc := byteWord (s.reg 0) + addrWord nnn }

end Sys2Proof.Machine
end

