-- ==== Sys2Proof/Machine/Display.lean ====
section
/-! DEFINITION. Clear screen and sprite draw (spec/44_display.md). -/

namespace Sys2Proof.Machine

/-- `00E0` CLS (R190). -/
def execCls (s : State) : Host.Outcome State Fault Refusal :=
  .next { s with fb := Screen.blank }

/-- The sprite of `n` rows at `I`, XORed onto the screen at column `x0` and row `y0`, with whether a pixel that was on was turned off (R192). -/
def State.drawn (s : State) (x0 y0 n : Nat) : Screen × Bool :=
  Screen.drawRows x0 y0 (Memory.readBytes s.mem s.i.toNat n) (s.fb, false)

/-- `Dxyn` DRW Vx, Vy, nibble (R192): the origin is read, reduced, before `VF` is written; `VF` is always written (log entry 17). -/
def execDrw (x y : RegNum) (n : Nibble) (s : State) : Host.Outcome State Fault Refusal :=
  let d := s.drawn ((s.reg x).toNat % 64) ((s.reg y).toNat % 32) n.toNat
  .next (s.withBlock n.toNat { s.setFlag d.2 with fb := d.1 })

end Sys2Proof.Machine
end

