-- ==== Sys2Proof/Machine/IndexMem.lean ====
section
/-! DEFINITION. The index register and the memory transfers (spec/43_index_and_memory.md). No memory instruction writes `I` back (R172). -/

namespace Sys2Proof.Machine

/-- `Annn` LD I, addr (R170). -/
def execLdI (nnn : Addr) (s : State) : Host.Outcome State Fault Refusal :=
  .next { s with i := addrWord nnn }

/-- `Fx1E` ADD I, Vx (R171): modulo 65536, no flag. -/
def execAddI (x : RegNum) (s : State) : Host.Outcome State Fault Refusal :=
  .next { s with i := s.i + byteWord (s.reg x) }

/-- `Fx29` LD F, Vx (R173): the whole byte is used, not its low nibble. -/
def execLdF (x : RegNum) (s : State) : Host.Outcome State Fault Refusal :=
  .next { s with i := BitVec.ofNat 16 (fontBase + 5 * (s.reg x).toNat) }

/-- The three decimal digits of a byte, most significant first, each a whole byte (R174). -/
def bcdDigits (b : Byte) : List Byte :=
  [BitVec.ofNat 8 (b.toNat / 100), BitVec.ofNat 8 (b.toNat / 10 % 10), BitVec.ofNat 8 (b.toNat % 10)]

/-- `Fx33` LD B, Vx (R174). -/
def execLdB (x : RegNum) (s : State) : Host.Outcome State Fault Refusal :=
  .next (s.withBlock 3 { s with mem := Memory.writeBytes s.mem s.i.toNat (bcdDigits (s.reg x)) })

/-- `Fx55` LD [I], Vx (R175): `V0` to `VX` inclusive, ascending. -/
def execStoreRegs (x : RegNum) (s : State) : Host.Outcome State Fault Refusal :=
  .next (s.withBlock (x.toNat + 1)
    { s with mem := Memory.writeBytes s.mem s.i.toNat (s.firstRegs (x.toNat + 1)) })

/-- `Fx65` LD Vx, [I] (R176): `V0` to `VX` inclusive, ascending. -/
def execLoadRegs (x : RegNum) (s : State) : Host.Outcome State Fault Refusal :=
  .next (s.withBlock (x.toNat + 1) (s.loadFirstRegs s.i.toNat (x.toNat + 1)))

end Sys2Proof.Machine
end

