-- ==== Sys2Proof/Machine/KeyTimer.lean ====
section
/-! DEFINITION. Keypad and timer instructions (spec/45_keypad_and_timers.md). -/

namespace Sys2Proof.Machine

/-- `Ex9E` SKP Vx (R200). -/
def execSkp (x : RegNum) (s : State) : Host.Outcome State Fault Refusal :=
  .next (s.skipKey x true)

/-- `ExA1` SKNP Vx (R201). -/
def execSknp (x : RegNum) (s : State) : Host.Outcome State Fault Refusal :=
  .next (s.skipKey x false)

/-- `Fx07` LD Vx, DT (R203): the value before this cycle's tick. -/
def execLdVxDt (x : RegNum) (s : State) : Host.Outcome State Fault Refusal :=
  .next (s.setReg x s.dt)

/-- `Fx0A` LD Vx, K (R202): the least pressed key, or `PC` back to this instruction's own address. -/
def execLdVxK (x : RegNum) (s : State) : Host.Outcome State Fault Refusal :=
  .next (match s.lowestKey with
    | some k => s.setReg x (BitVec.ofNat 8 k)
    | none => { s with pc := s.pc - 2 })

/-- `Fx15` LD DT, Vx (R204). -/
def execLdDtVx (x : RegNum) (s : State) : Host.Outcome State Fault Refusal :=
  .next { s with dt := s.reg x }

/-- `Fx18` LD ST, Vx (R205). -/
def execLdStVx (x : RegNum) (s : State) : Host.Outcome State Fault Refusal :=
  .next { s with st := s.reg x }

end Sys2Proof.Machine
end

