-- ==== Sys2Proof/Machine/Nop.lean ====
section
/-! DEFINITION. The no-op, the handler of every undefined word (spec/40_cycle_and_dispatch.md R104). -/

namespace Sys2Proof.Machine

/-- NOP (R104): nothing. -/
def execNop (s : State) : Host.Outcome State Fault Refusal := .next s

end Sys2Proof.Machine
end

