-- ==== Sys2Proof/Machine/Cycle.lean ====
section
/-! DEFINITION. The Cycle Driver (spec/40_cycle_and_dispatch.md R100): one fetch, PC advance, dispatch and timer tick, with its two inputs as arguments. -/

namespace Sys2Proof.Machine

/-- One cycle (R100). A halted core does nothing (spec/60_exceptions.md R227); otherwise the fetch's own fault is tested first (R229), then the
handler the decoder chooses runs on the advanced state, and the cycle ends with the tick or with the fault the handler raised (R105, R106). -/
def cycle (keys : BitVec 16) (rnd : Byte) (s : State) : Host.Outcome State Fault Refusal :=
  if s.halted then .next s
  else if s.fetchOutOfRange then .next s.raiseFetch
  else
    match exec (decodeWord s.fetchWord) (s.beginCycle keys rnd) with
    | .next t => .next (s.finishCycle t)
    | .fault f => .fault f
    | .refused r => .refused r

/-- Cycles with given inputs, one pair of key snapshot and random byte for each (spec/70_reset_and_hazards.md R258). -/
def runInputs : List (BitVec 16 × Byte) → State → Host.Outcome State Fault Refusal
  | [], s => .next s
  | (keys, rnd) :: rest, s =>
    match cycle keys rnd s with
    | .next t => runInputs rest t
    | .fault f => .fault f
    | .refused r => .refused r

end Sys2Proof.Machine
end

