-- ==== Sys2Proof/Machine/Step.lean ====
section
/-! DEFINITION. The step of the machine: one cycle whose inputs are the free values of Config (log entries 1, 2), and where the step fetches. -/

namespace Sys2Proof.Machine

/-- One step: a cycle with the next key snapshot and the next random byte. -/
def step (s : State) : Host.Outcome State Fault Refusal :=
  cycle (Config.keySnapshot s.samples) (Config.randomByte s.draws) s

/-- `s` with the instruction of the opcode table's word `w` stored where `step` fetches: at `PC` and `PC + 1`. -/
def State.withFetchWord (s : State) (nbits w : Nat) : State :=
  { s with mem := Memory.writeBytes s.mem s.pc.toNat (tableBytes nbits w) }

end Sys2Proof.Machine
end

