-- ==== Sys2Proof/Machine/Load.lean ====
section
/-! DEFINITION. Reset with a font, and the program load: the host's two actions before the first cycle (spec/70_reset_and_hazards.md R250 to R257). -/

namespace Sys2Proof.Machine

/-- `PROG_BASE` (spec/00_scope.md R6). -/
def progBase : Nat := 0x200

/-- `PROG_MAX`, 4096 - 0x200 bytes (R6, R256). -/
def progMax : Nat := 3584

/-- Reset with the parameter `FONT` (spec/10_state.md R35, R36): the 80 bytes are copied to `0x050`. -/
def State.resetWith (font : Vector Byte 80) : State :=
  { State.reset with mem := Memory.writeBytes State.reset.mem fontBase font.toList }

/-- The load (R255): byte `j` of the image goes to `MEM[0x200 + j]`, nothing else changes; an image longer than 3584 bytes is rejected (R256). -/
def State.load (image : List Byte) (s : State) : Option State :=
  if image.length ≤ progMax then some { s with mem := Memory.writeBytes s.mem progBase image } else none

/-- The launch state (R255): reset, then the load; a rejected image leaves exactly the reset state (R256, R257). -/
def State.launch (font : Vector Byte 80) (image : List Byte) : State :=
  ((State.resetWith font).load image).getD (State.resetWith font)

end Sys2Proof.Machine
end

