-- ==== Sys2Proof/Safety.lean ====
section
/-! DEFINITION. What counts as a safe run, in the terms the claims use: when a cycle runs, which faults the spec gives an instruction, the invariants of
the machine, and the convention for the end of a run. -/

namespace Sys2Proof.Machine

/-- A cycle that fetches and runs an instruction: the core is not halted and both bytes of the fetch lie in memory (spec/40_cycle_and_dispatch.md R100, R101). -/
def State.Running (s : State) : Prop := s.err.code = .noFault ∧ s.pc.toNat ≤ 0x0FFE

/-- The instruction at `PC`. -/
def State.current (s : State) : Instr := decodeWord s.fetchWord

/-- The table of spec/60_exceptions.md R220 for the handlers, on the state when the cycle begins: the cause and the value of `ERR.info`, or none.
`FetchRange`, the fetch's own fault, is not a handler's. -/
def faultOf (i : Instr) (s : State) : Option (ErrCode × Word) :=
  match i with
  | .call nnn => if s.sp.val = 16 then some (.stackOverflow, BitVec.ofNat 16 nnn.toNat) else none
  | .ret _ => if s.sp.val = 0 then some (.stackUnderflow, 0) else none
  | .drw _ _ n => if 0 < n.toNat ∧ 0x0FFF < s.i.toNat + n.toNat - 1 then some (.memRange, BitVec.ofNat 16 (max s.i.toNat 0x1000)) else none
  | .ldB _ => if 0x0FFF < s.i.toNat + 2 then some (.memRange, BitVec.ofNat 16 (max s.i.toNat 0x1000)) else none
  | .storeRegs x => if 0x0FFF < s.i.toNat + x.toNat then some (.memRange, BitVec.ofNat 16 (max s.i.toNat 0x1000)) else none
  | .loadRegs x => if 0x0FFF < s.i.toNat + x.toNat then some (.memRange, BitVec.ofNat 16 (max s.i.toNat 0x1000)) else none
  | .skp x _ => if 15 < (s.reg x).toNat then some (.keyRange, BitVec.ofNat 16 (s.reg x).toNat) else none
  | .sknp x _ => if 15 < (s.reg x).toNat then some (.keyRange, BitVec.ofNat 16 (s.reg x).toNat) else none
  | .cls _ | .jp _ | .seByte _ _ | .sneByte _ _ | .seReg _ _ _ | .sneReg _ _ _ | .jpV0 _ => none
  | .ldByte _ _ | .addByte _ _ | .ldReg _ _ | .orReg _ _ | .andReg _ _ | .xorReg _ _ => none
  | .addReg _ _ | .subReg _ _ | .shr _ _ | .subn _ _ | .shl _ _ | .rnd _ _ => none
  | .ldI _ | .addI _ | .ldF _ | .ldVxDt _ | .ldVxK _ | .ldDtVx _ | .ldStVx _ | .nop _ => none

/-- The fault latch tells the truth (spec/60_exceptions.md R220, R226, R227): clear while no fault has occurred; afterwards `epc` is the `PC` the core
stands at, and the cause and value are those of the word `eop` on this very state, which no later cycle changes. -/
def State.ErrTrue (s : State) : Prop :=
  (s.err.code = .noFault → s.err = Err.clear) ∧
  (s.err.code ≠ .noFault → s.err.epc = s.pc) ∧
  (s.err.code = .fetchRange → 0x0FFE < s.pc.toNat ∧ s.err.eop = 0 ∧ s.err.info = s.pc) ∧
  (s.err.code ≠ .noFault → s.err.code ≠ .fetchRange → faultOf (decodeWord s.err.eop) s = some (s.err.code, s.err.info))

/-- The invariant of every step: memory in its canonical form, so no cell outside `0..4095` (spec/20_memory.md R56), and a truthful latch. -/
def State.Inv (s : State) : Prop := Memory.wf s.mem = true ∧ s.ErrTrue

/-- The bound on `PC` (spec/10_state.md R24): at most `0x10FE`, so `PC + 2` never wraps past `0xFFFF`; it needs the bound on what a return pops. -/
def State.PcBounded (s : State) : Prop :=
  s.pc.toNat ≤ 0x10FE ∧ ∀ k : Fin 16, s.stack[k].toNat ≤ 0x1000

/-- The end of a run by the convention of spec/70_reset_and_hazards.md R262: no fault, and the word at `PC`, both bytes of which lie in memory, is a
jump to `PC` itself. -/
def State.AtRest (s : State) : Prop :=
  s.Running ∧ ∃ nnn : Addr, decodeWord s.fetchWord = .jp nnn ∧ nnn.toNat = s.pc.toNat

end Sys2Proof.Machine
end

