-- ==== Sys2Proof/Certificates/Slice0/Obligations.lean ====
section
/-! DEFINITION. The statements about the machine, from the numbered rules of spec/. Nothing is proved here. In every statement about one instruction,
`t = { s with … }` is its frame: every field that is not named is unchanged as data, memory (so every byte of it reads as before), stack, screen, timers,
fault latch, opcode and inputs alike. -/

open Sys2Proof Sys2Proof.Machine

/-! ## Encoding -/

/-- R70, R71, R78: no bit of an encoding is dropped, for all instructions. -/
def Obligations.EncodeThenDecodeGivesTheInstruction : Prop :=
  ∀ i : Instr, i.wellFormed = true → decodeWord (encode i) = i

/-- R82, R79: every word decodes to a well-formed instruction, and to its own. -/
def Obligations.DecodeThenEncodeGivesTheWord : Prop :=
  ∀ w : Word, (decodeWord w).wellFormed = true ∧ encode (decodeWord w) = w

/-- R78, with R79 for the words that match no row. -/
def Obligations.DecoderFollowsTheOpcodeMap : Prop :=
  (∀ (w : Word) (r : Word × Word), r ∈ definedRows → w &&& r.1 = r.2 → (decodeWord w).row = r) ∧
  (∀ w : Word, (∀ r ∈ definedRows, w &&& r.1 ≠ r.2) → decodeWord w = .nop w) ∧
  (∀ r ∈ definedRows, ∀ r' ∈ definedRows, ∀ w : Word, w &&& r.1 = r.2 → w &&& r'.1 = r'.2 → r = r')

/-- R79: the no-op words, listed by their nibbles. -/
def Obligations.NoOpWordsAreTheListedOnes : Prop :=
  ∀ w : Word, decodeWord w = .nop w ↔
    (opT w = 0x0 ∧ opN w ≠ 0x0 ∧ opN w ≠ 0xE) ∨
    (opT w = 0x8 ∧ 0x8 ≤ (opN w).toNat ∧ opN w ≠ 0xE) ∨
    (opT w = 0xE ∧ opN w ≠ 0x1 ∧ opN w ≠ 0xE) ∨
    (opT w = 0xF ∧ ∀ kk ∈ [0x07#8, 0x0A#8, 0x15#8, 0x18#8, 0x1E#8, 0x29#8, 0x33#8, 0x55#8, 0x65#8], opKK w ≠ kk)

/-- R80: the words a decoder that tests only the keyed bits routes to a defined instruction, and that the ignored bits change nothing. -/
def Obligations.AliasWordsRunTheirInstruction : Prop :=
  (∀ w : Word, opT w = 0x0 → opN w = 0x0 → ∀ s, exec (decodeWord w) s = exec (decodeWord 0x00E0) s) ∧
  (∀ w : Word, opT w = 0x0 → opN w = 0xE → ∀ s, exec (decodeWord w) s = exec (decodeWord 0x00EE) s) ∧
  (∀ w : Word, opT w = 0x5 → ∀ s, exec (decodeWord w) s = exec (decodeWord (w &&& 0xFFF0)) s) ∧
  (∀ w : Word, opT w = 0x9 → ∀ s, exec (decodeWord w) s = exec (decodeWord (w &&& 0xFFF0)) s) ∧
  (∀ w : Word, opT w = 0xE → opN w = 0xE → ∀ s, exec (decodeWord w) s = exec (decodeWord (w &&& 0xFF0F ||| 0x0090)) s) ∧
  (∀ w : Word, opT w = 0xE → opN w = 0x1 → ∀ s, exec (decodeWord w) s = exec (decodeWord (w &&& 0xFF0F ||| 0x00A0)) s)

/-- Words written out bit by bit from R71 and R78: one or more for every value of the top nibble, two aliases (`00F0`, `5121`) and two no-ops
(`0001`, `8018`) among them (sanity). -/
def Obligations.WrittenOutWordsDecode : Prop :=
  decodeWord 0b0000000011100000 = .cls 0x0E ∧ decodeWord 0b0000000011101110 = .ret 0x0E ∧
  decodeWord 0b0000000011110000 = .cls 0x0F ∧ decodeWord 0b0000000000000001 = .nop 0x0001 ∧
  decodeWord 0b0001101010111100 = .jp 0xABC ∧ decodeWord 0b0010001000001010 = .call 0x20A ∧
  decodeWord 0b0011001100101010 = .seByte 3 0x2A ∧ decodeWord 0b0100001100101010 = .sneByte 3 0x2A ∧
  decodeWord 0b0101000100100000 = .seReg 1 2 0 ∧ decodeWord 0b0101000100100001 = .seReg 1 2 1 ∧
  decodeWord 0b0110101001111111 = .ldByte 0xA 0x7F ∧ decodeWord 0b0111000100000010 = .addByte 1 2 ∧
  decodeWord 0b1000000100100101 = .subReg 1 2 ∧ decodeWord 0b1001000100100111 = .sneReg 1 2 7 ∧
  decodeWord 0b1010001011110000 = .ldI 0x2F0 ∧ decodeWord 0b1011001100000000 = .jpV0 0x300 ∧
  decodeWord 0b1100000100001111 = .rnd 1 0x0F ∧ decodeWord 0b1101000000010010 = .drw 0 1 2 ∧
  decodeWord 0b1110001010011110 = .skp 2 9 ∧ decodeWord 0b1110001010100001 = .sknp 2 0xA ∧
  decodeWord 0b1111000100001010 = .ldVxK 1 ∧ decodeWord 0b1111001001100101 = .loadRegs 2 ∧
  decodeWord 0b1000000000011000 = .nop 0x8018

/-! ## The cycle -/

/-- R100 to R103, R105, R106: a step that fetches runs `exec` of the decoded instruction on the state with the inputs sampled, the word in
`OPCODE` and `PC` advanced by 2, and then ends the cycle. The model's choices in it: the inputs as free values indexed by its own counters (log entries
1, 2), those inputs restored by a cycle that faults (log entry 6), and the cut between `exec` and the cycle (log entry 18). -/
def Obligations.StepRunsTheDecodedInstruction : Prop :=
  ∀ (s : State) (i : Instr) (rest : List Byte), s.Running →
    decode [Memory.read s.mem s.pc.toNat, Memory.read s.mem (s.pc.toNat + 1)] = .ok (i, rest) →
    step s =
      match exec i { s with keys := Config.keySnapshot s.samples, rnd := Config.randomByte s.draws, samples := s.samples + 1,
                            opcode := s.fetchWord, pc := s.pc + 2 } with
      | .next t =>
        .next (if t.err.code = .noFault then
            { t with dt := if t.dt = 0 then 0 else t.dt - 1, st := if t.st = 0 then 0 else t.st - 1 }
          else { s with err := t.err })
      | .fault f => .fault f
      | .refused r => .refused r

/-- R101, R52: `OPCODE` after a cycle is the big-endian word that stood at `PC`. -/
def Obligations.OpcodeIsTheBigEndianWordAtPc : Prop :=
  ∀ s t : State, s.Running → step s = .next t → t.err.code = .noFault →
    t.opcode.toNat = 256 * (Memory.read s.mem s.pc.toNat).toNat + (Memory.read s.mem (s.pc.toNat + 1)).toNat

/-- R227. -/
def Obligations.HaltedCoreDoesNothing : Prop :=
  ∀ s : State, s.err.code ≠ .noFault →
    step s = .next s ∧ ∀ (keys : BitVec 16) (rnd : Byte), cycle keys rnd s = .next s

/-- R224, R57. That the model's copies of the inputs stay too is its choice (log entry 6). -/
def Obligations.FetchOutsideMemoryFaults : Prop :=
  ∀ s : State, s.err.code = .noFault → 0x0FFE < s.pc.toNat →
    step s = .next { s with err := { code := .fetchRange, epc := s.pc, eop := 0, info := s.pc } }

/-- R105: the two timers count down once in every cycle that does not fault, after the handler, and stop at 0 (a read of `DT` sees it before the
tick, which R105 marks as derived from R100); a cycle that faults has no tick. -/
def Obligations.TimersTickOnceInEveryCompletedCycle : Prop :=
  ∀ s t : State, s.Running → step s = .next t →
    (t.err.code = .noFault →
      t.dt.toNat = (match s.current with | .ldDtVx x => (s.reg x).toNat | _ => s.dt.toNat) - 1 ∧
      t.st.toNat = (match s.current with | .ldStVx x => (s.reg x).toNat | _ => s.st.toNat) - 1 ∧
      ∀ x, s.current = .ldVxDt x → t.reg x = s.dt) ∧
    (t.err.code ≠ .noFault → t.dt = s.dt ∧ t.st = s.st)

/-- R220, R226 (with R106, R229, R231): a step of a core that is not halted answers a next state; it faults exactly where the table of R220 says so,
and then nothing but `ERR` changes; otherwise `ERR` stays clear. That a fault leaves the model's copies of the inputs and its count of samples as they
were is its choice (log entry 6). -/
def Obligations.FaultsAreExactlyTheListedOnesAndPrecise : Prop :=
  ∀ s : State, s.err.code = .noFault →
    (0x0FFE < s.pc.toNat → step s = .next { s with err := { code := .fetchRange, epc := s.pc, eop := 0, info := s.pc } }) ∧
    (s.pc.toNat ≤ 0x0FFE → ∃ t, step s = .next t ∧
      match faultOf s.current s with
      | some (c, info) => t = { s with err := { code := c, epc := s.pc, eop := s.fetchWord, info := info } }
      | none => t.err = s.err)

/-! ## Invariants -/

/-- R56, R220, R226, R227 (W5): memory keeps its canonical form and the fault latch tells the truth, in every step. -/
def Obligations.EveryStepKeepsMemoryAndLatchInvariant : Prop :=
  ∀ s t : State, s.Inv → step s = .next t → t.Inv

/-- The invariant holds after reset, whatever the font, and after a load, whatever the image. -/
def Obligations.MemoryAndLatchInvariantAtLaunch : Prop :=
  State.reset.Inv ∧ (∀ font : Vector Byte 80, (State.resetWith font).Inv) ∧
  ∀ (font : Vector Byte 80) (image : List Byte), (State.launch font image).Inv

/-- R24: `PC` never exceeds `0x10FE`, so no execution wraps it past `0xFFFF`. -/
def Obligations.EveryStepKeepsPcBounded : Prop :=
  ∀ s t : State, s.PcBounded → step s = .next t → t.PcBounded

/-- The bound on `PC` at reset and launch. -/
def Obligations.PcBoundedAtLaunch : Prop :=
  State.reset.PcBounded ∧ ∀ (font : Vector Byte 80) (image : List Byte), (State.launch font image).PcBounded

/-! ## Whole-machine rules: who may change what -/

/-- R53: no instruction but `Fx33` and `Fx55` changes memory. -/
def Obligations.OnlyTwoInstructionsStoreToMemory : Prop :=
  ∀ (i : Instr) (s t : State), exec i s = .next t → t.mem ≠ s.mem → (∃ x, i = .ldB x) ∨ (∃ x, i = .storeRegs x)

/-- R28: only the clear and the draw write the framebuffer. -/
def Obligations.OnlyClearAndDrawChangeTheScreen : Prop :=
  ∀ (i : Instr) (s t : State), exec i s = .next t → t.fb ≠ s.fb → (∃ g, i = .cls g) ∨ (∃ x y n, i = .drw x y n)

/-- R26, R50: no instruction but CALL and RET reaches the call stack. None changes it but those two, and RET leaves every entry as it is; and none
reads it: with another stack and stack pointer, any other instruction leaves the same state but for that stack and that pointer. -/
def Obligations.OnlyCallAndReturnReachTheStack : Prop :=
  (∀ (i : Instr) (s t : State), exec i s = .next t →
    (t.sp ≠ s.sp → (∃ nnn, i = .call nnn) ∨ (∃ g, i = .ret g)) ∧
    (t.stack ≠ s.stack → ∃ nnn, i = .call nnn)) ∧
  ∀ (i : Instr) (s : State) (stack : Vector Word 16) (sp : Fin 17), (∀ nnn, i ≠ .call nnn) → (∀ g, i ≠ .ret g) →
    ∃ t, exec i s = .next t ∧ exec i { s with stack := stack, sp := sp } = .next { t with stack := stack, sp := sp }

/-- R23, R172, R206: the writers of `I`, of `DT` and of `ST` (apart from the tick, which is not a handler's). -/
def Obligations.WritersOfIndexAndTimers : Prop :=
  ∀ (i : Instr) (s t : State), exec i s = .next t →
    (t.i ≠ s.i → (∃ nnn, i = .ldI nnn) ∨ (∃ x, i = .addI x) ∨ (∃ x, i = .ldF x)) ∧
    (t.dt ≠ s.dt → ∃ x, i = .ldDtVx x) ∧ (t.st ≠ s.st → ∃ x, i = .ldStVx x)

/-- R24: the handlers that change `PC`, and to what; a raised fault takes the cycle's own advance back. -/
def Obligations.WritersOfThePc : Prop :=
  ∀ (i : Instr) (s t : State), s.err.code = .noFault → exec i s = .next t → t.err.code = .noFault → t.pc ≠ s.pc →
    match i with
    | .jp nnn | .call nnn => t.pc.toNat = nnn.toNat
    | .jpV0 nnn => t.pc.toNat = (s.reg 0).toNat + nnn.toNat
    | .ret _ => 0 < s.sp.val ∧ s.stack[s.sp.val - 1]? = some t.pc
    | .seByte _ _ | .sneByte _ _ | .seReg _ _ _ | .sneReg _ _ _ | .skp _ _ | .sknp _ _ => t.pc = s.pc + 2
    | .ldVxK _ => t.pc = s.pc - 2
    | _ => False

/-- R22: the instructions that write `VF`: six as a flag, the others only where they name it as their destination. -/
def Obligations.WritersOfTheFlagRegister : Prop :=
  ∀ (i : Instr) (s t : State), exec i s = .next t → t.reg regF ≠ s.reg regF →
    match i with
    | .addReg _ _ | .subReg _ _ | .subn _ _ | .shr _ _ | .shl _ _ | .drw _ _ _ => True
    | .ldByte x _ | .addByte x _ | .ldReg x _ | .orReg x _ | .andReg x _ | .xorReg x _ | .rnd x _ => x = regF
    | .ldVxDt x | .ldVxK x | .loadRegs x => x = regF
    | _ => False

/-- R29, R206, R153: no handler writes the inputs of its cycle or `OPCODE`, and only `Cxkk` draws a byte, one for each execution.
The fields that hold the inputs and the two counters are the model's own (log entries 1, 2). -/
def Obligations.InputsAreReadOnlyAndOneDrawForEachRandom : Prop :=
  ∀ (i : Instr) (s t : State), exec i s = .next t →
    t.keys = s.keys ∧ t.rnd = s.rnd ∧ t.opcode = s.opcode ∧ t.samples = s.samples ∧
    t.draws = s.draws + (match i with | .rnd _ _ => 1 | _ => 0)

/-- R29, R31, R153 (the inputs of a cycle): the key snapshot decides nothing but in the three key instructions, and the random byte nothing but in
`Cxkk`: two cycles from one state that differ in such an input leave states that differ in the sampled input alone. The fields that hold the
inputs are the model's own (log entries 1, 2). -/
def Obligations.InputsMatterOnlyToTheirInstructions : Prop :=
  ∀ (s : State) (keys keys' : BitVec 16) (rnd rnd' : Byte), s.Running →
    ((match s.current with | .skp _ _ | .sknp _ _ | .ldVxK _ => False | _ => True) →
      ∃ t t', cycle keys rnd s = .next t ∧ cycle keys' rnd s = .next t' ∧ t' = { t with keys := t'.keys }) ∧
    ((match s.current with | .rnd _ _ => False | _ => True) →
      ∃ t t', cycle keys rnd s = .next t ∧ cycle keys rnd' s = .next t' ∧ t' = { t with rnd := t'.rnd })

/-! ## Control transfer -/

/-- R121. -/
def Obligations.JumpGoesToItsAddress : Prop :=
  (∀ w : Word, opT w = 0x1 → decodeWord w = .jp (opNNN w)) ∧
  ∀ (nnn : Addr) (s : State), ∃ t, exec (.jp nnn) s = .next t ∧ t.pc.toNat = nnn.toNat ∧ t = { s with pc := t.pc }

/-- R128: a 16-bit sum that is not masked, which is the spec's reading of the width (decision D15). -/
def Obligations.IndexedJumpAddsV0 : Prop :=
  (∀ w : Word, opT w = 0xB → decodeWord w = .jpV0 (opNNN w)) ∧
  ∀ (nnn : Addr) (s : State), ∃ t, exec (.jpV0 nnn) s = .next t ∧
    t.pc.toNat = (s.reg 0).toNat + nnn.toNat ∧ t = { s with pc := t.pc }

/-- R122: `s.pc` is the address of the CALL + 2. -/
def Obligations.CallPushesTheReturnAddress : Prop :=
  (∀ w : Word, opT w = 0x2 → decodeWord w = .call (opNNN w)) ∧
  (∀ (nnn : Addr) (s : State), s.sp.val < 16 → ∃ t, exec (.call nnn) s = .next t ∧
    t.pc.toNat = nnn.toNat ∧ t.sp.val = s.sp.val + 1 ∧ t.stack[s.sp.val]? = some s.pc ∧
    (∀ k : Fin 16, k.val ≠ s.sp.val → t.stack[k] = s.stack[k]) ∧ t = { s with pc := t.pc, sp := t.sp, stack := t.stack }) ∧
  ∀ (nnn : Addr) (s : State), s.sp.val = 16 →
    exec (.call nnn) s = .next { s with
      pc := s.pc - 2, err := { code := .stackOverflow, epc := s.pc - 2, eop := s.opcode, info := nnn.zeroExtend 16 } }

/-- R120: the popped entry is not cleared, and nothing is added to the popped value. -/
def Obligations.ReturnPopsIntoThePc : Prop :=
  (∀ w : Word, opT w = 0x0 → opN w = 0xE → decodeWord w = .ret (opMid w)) ∧
  (∀ (g : Byte) (s : State), 0 < s.sp.val → ∃ t, exec (.ret g) s = .next t ∧
    t.sp.val + 1 = s.sp.val ∧ s.stack[t.sp.val]? = some t.pc ∧ t = { s with pc := t.pc, sp := t.sp }) ∧
  ∀ (g : Byte) (s : State), s.sp.val = 0 →
    exec (.ret g) s = .next { s with
      pc := s.pc - 2, err := { code := .stackUnderflow, epc := s.pc - 2, eop := s.opcode, info := 0 } }

/-- The round trip of call and return (section 8 of the source, S8): whatever the routine did, if it left the stack as the call made it, its return
comes back to the address after the call, with the stack as deep as before. -/
def Obligations.ReturnAfterCallComesBack : Prop :=
  ∀ (nnn : Addr) (g : Byte) (s t r : State), s.sp.val < 16 → exec (.call nnn) s = .next t →
    r.stack = t.stack → r.sp = t.sp → ∃ u, exec (.ret g) r = .next u ∧ u.pc = s.pc ∧ u.sp = s.sp

/-- R221, R222 as a whole step: the core stops with nothing changed but the latch. That the model's copies of the inputs stay too is its choice
(log entry 6). -/
def Obligations.StackFaultsStopTheCore : Prop :=
  (∀ (s : State) (nnn : Addr), s.Running → s.current = .call nnn → s.sp.val = 16 →
    step s = .next { s with err := { code := .stackOverflow, epc := s.pc, eop := s.fetchWord, info := nnn.zeroExtend 16 } }) ∧
  ∀ (s : State) (g : Byte), s.Running → s.current = .ret g → s.sp.val = 0 →
    step s = .next { s with err := { code := .stackUnderflow, epc := s.pc, eop := s.fetchWord, info := 0 } }

/-- R123, R124, R127. -/
def Obligations.ByteSkipsCompareTheWholeRegister : Prop :=
  (∀ w : Word, opT w = 0x3 → decodeWord w = .seByte (opX w) (opKK w)) ∧
  (∀ w : Word, opT w = 0x4 → decodeWord w = .sneByte (opX w) (opKK w)) ∧
  ∀ (x : RegNum) (kk : Byte) (s : State),
    (∃ t, exec (.seByte x kk) s = .next t ∧ t.pc = (if (s.reg x).toNat = kk.toNat then s.pc + 2 else s.pc) ∧ t = { s with pc := t.pc }) ∧
    (∃ t, exec (.sneByte x kk) s = .next t ∧ t.pc = (if (s.reg x).toNat = kk.toNat then s.pc else s.pc + 2) ∧ t = { s with pc := t.pc })

/-- R125, R126, R127; `op[3:0]` plays no part. -/
def Obligations.RegisterSkipsCompareTwoRegisters : Prop :=
  (∀ w : Word, opT w = 0x5 → decodeWord w = .seReg (opX w) (opY w) (opN w)) ∧
  (∀ w : Word, opT w = 0x9 → decodeWord w = .sneReg (opX w) (opY w) (opN w)) ∧
  ∀ (x y : RegNum) (g : Nibble) (s : State),
    (∃ t, exec (.seReg x y g) s = .next t ∧ t.pc = (if s.reg x = s.reg y then s.pc + 2 else s.pc) ∧ t = { s with pc := t.pc }) ∧
    (∃ t, exec (.sneReg x y g) s = .next t ∧ t.pc = (if s.reg x = s.reg y then s.pc else s.pc + 2) ∧ t = { s with pc := t.pc })

/-! ## Registers, arithmetic, logic, random -/

/-- R142. -/
def Obligations.LoadByteSetsOneRegister : Prop :=
  (∀ w : Word, opT w = 0x6 → decodeWord w = .ldByte (opX w) (opKK w)) ∧
  ∀ (x : RegNum) (kk : Byte) (s : State), ∃ t, exec (.ldByte x kk) s = .next t ∧
    t.reg x = kk ∧ (∀ r, r ≠ x → t.reg r = s.reg r) ∧ t = { s with v := t.v }

/-- R143: modulo 256, and `VF` is not written unless it is `Vx`. -/
def Obligations.AddByteWrapsWithoutAFlag : Prop :=
  (∀ w : Word, opT w = 0x7 → decodeWord w = .addByte (opX w) (opKK w)) ∧
  ∀ (x : RegNum) (kk : Byte) (s : State), ∃ t, exec (.addByte x kk) s = .next t ∧
    (t.reg x).toNat = ((s.reg x).toNat + kk.toNat) % 256 ∧ (∀ r, r ≠ x → t.reg r = s.reg r) ∧ t = { s with v := t.v }

/-- R144 to R147: bit by bit, and `VF` is left alone unless it is `Vx` (the spec's reading of a contract as the complete list of writes, decision D30). -/
def Obligations.MoveAndLogicActBitByBit : Prop :=
  (∀ w : Word, opT w = 0x8 →
    (opN w = 0x0 → decodeWord w = .ldReg (opX w) (opY w)) ∧ (opN w = 0x1 → decodeWord w = .orReg (opX w) (opY w)) ∧
    (opN w = 0x2 → decodeWord w = .andReg (opX w) (opY w)) ∧ (opN w = 0x3 → decodeWord w = .xorReg (opX w) (opY w))) ∧
  ∀ (x y : RegNum) (s : State),
    (∃ t, exec (.ldReg x y) s = .next t ∧ t.reg x = s.reg y ∧ (∀ r, r ≠ x → t.reg r = s.reg r) ∧ t = { s with v := t.v }) ∧
    (∃ t, exec (.orReg x y) s = .next t ∧ (∀ k, (t.reg x).getLsbD k = ((s.reg x).getLsbD k || (s.reg y).getLsbD k)) ∧
      (∀ r, r ≠ x → t.reg r = s.reg r) ∧ t = { s with v := t.v }) ∧
    (∃ t, exec (.andReg x y) s = .next t ∧ (∀ k, (t.reg x).getLsbD k = ((s.reg x).getLsbD k && (s.reg y).getLsbD k)) ∧
      (∀ r, r ≠ x → t.reg r = s.reg r) ∧ t = { s with v := t.v }) ∧
    (∃ t, exec (.xorReg x y) s = .next t ∧ (∀ k, (t.reg x).getLsbD k = xor ((s.reg x).getLsbD k) ((s.reg y).getLsbD k)) ∧
      (∀ r, r ≠ x → t.reg r = s.reg r) ∧ t = { s with v := t.v })

/-- R148: the sum of the old operands; the carry in `VF`, which the sum overwrites where `Vx` is `VF` (the spec's reading of the order of the two
writes, R141, decision D9). -/
def Obligations.AddWithCarryOut : Prop :=
  (∀ w : Word, opT w = 0x8 → opN w = 0x4 → decodeWord w = .addReg (opX w) (opY w)) ∧
  ∀ (x y : RegNum) (s : State), ∃ t, exec (.addReg x y) s = .next t ∧
    (t.reg x).toNat = ((s.reg x).toNat + (s.reg y).toNat) % 256 ∧
    (x ≠ regF → t.reg regF = if 255 < (s.reg x).toNat + (s.reg y).toNat then 1 else 0) ∧
    (∀ r, r ≠ x → r ≠ regF → t.reg r = s.reg r) ∧ t = { s with v := t.v }

/-- R149 and R141 with `a`, `b` the old operands and `f` the flag: the flag is written first, so it takes the place of the operand that is `VF` (the
spec's reading of the order of the two writes, decision D9). -/
def Obligations.SubtractWritesTheFlagFirst : Prop :=
  (∀ w : Word, opT w = 0x8 → opN w = 0x5 → decodeWord w = .subReg (opX w) (opY w)) ∧
  ∀ (x y : RegNum) (s : State), ∃ t, exec (.subReg x y) s = .next t ∧
    (let a := (s.reg x).toNat
     let b := (s.reg y).toNat
     let f := if b < a then 1 else 0
     (t.reg x).toNat = (256 + (if x = regF then f else a) - (if y = regF then f else b)) % 256 ∧
     (x ≠ regF → (t.reg regF).toNat = f)) ∧
    (∀ r, r ≠ x → r ≠ regF → t.reg r = s.reg r) ∧ t = { s with v := t.v }

/-- R151 and R141 (decision D9): as the subtraction with the operands swapped; the destination is still `Vx`. -/
def Obligations.ReverseSubtractWritesTheFlagFirst : Prop :=
  (∀ w : Word, opT w = 0x8 → opN w = 0x7 → decodeWord w = .subn (opX w) (opY w)) ∧
  ∀ (x y : RegNum) (s : State), ∃ t, exec (.subn x y) s = .next t ∧
    (let a := (s.reg x).toNat
     let b := (s.reg y).toNat
     let f := if a < b then 1 else 0
     (t.reg x).toNat = (256 + (if y = regF then f else b) - (if x = regF then f else a)) % 256 ∧
     (x ≠ regF → (t.reg regF).toNat = f)) ∧
    (∀ r, r ≠ x → r ≠ regF → t.reg r = s.reg r) ∧ t = { s with v := t.v }

/-- R150, R152 and R141: one bit, logical, `Vy` unused, the bit shifted out in `VF`; a shift of `VF` itself shifts the flag just written (the spec's
reading of the order of the two writes, decision D9). -/
def Obligations.ShiftsMoveOneBitAndIgnoreVy : Prop :=
  (∀ w : Word, opT w = 0x8 → opN w = 0x6 → decodeWord w = .shr (opX w) (opY w)) ∧
  (∀ w : Word, opT w = 0x8 → opN w = 0xE → decodeWord w = .shl (opX w) (opY w)) ∧
  ∀ (x y : RegNum) (s : State),
    (∃ t, exec (.shr x y) s = .next t ∧
      (x ≠ regF → (t.reg x).toNat = (s.reg x).toNat / 2 ∧ (t.reg regF).toNat = (s.reg x).toNat % 2) ∧
      (x = regF → t.reg regF = 0) ∧ (∀ r, r ≠ x → r ≠ regF → t.reg r = s.reg r) ∧ t = { s with v := t.v }) ∧
    (∃ t, exec (.shl x y) s = .next t ∧
      (x ≠ regF → (t.reg x).toNat = 2 * (s.reg x).toNat % 256 ∧ (t.reg regF).toNat = (s.reg x).toNat / 128) ∧
      (x = regF → (t.reg regF).toNat = 2 * ((s.reg regF).toNat / 128)) ∧
      (∀ r, r ≠ x → r ≠ regF → t.reg r = s.reg r) ∧ t = { s with v := t.v })

/-- R153: the cycle's random byte, which is free, under the mask; no bit outside `KK` is set, whatever the draw. The count
of draws is the model's own (log entry 2). -/
def Obligations.RandomByteIsMasked : Prop :=
  (∀ w : Word, opT w = 0xC → decodeWord w = .rnd (opX w) (opKK w)) ∧
  (∀ (x : RegNum) (kk : Byte) (s : State), ∃ t, exec (.rnd x kk) s = .next t ∧
    (∀ k, (t.reg x).getLsbD k = (s.rnd.getLsbD k && kk.getLsbD k)) ∧ t.reg x &&& ~~~kk = 0 ∧
    (∀ r, r ≠ x → t.reg r = s.reg r) ∧ t.draws = s.draws + 1 ∧ t = { s with v := t.v, draws := t.draws })

/-! ## Index register and memory -/

/-- R170, R171, R173; the wrap of `Fx1E` at 16 bits is the spec's reading of the width (decision D15). -/
def Obligations.IndexIsSetAddedToOrPointedAtAGlyph : Prop :=
  (∀ w : Word, opT w = 0xA → decodeWord w = .ldI (opNNN w)) ∧
  (∀ w : Word, opT w = 0xF → (opKK w = 0x1E → decodeWord w = .addI (opX w)) ∧ (opKK w = 0x29 → decodeWord w = .ldF (opX w))) ∧
  (∀ (nnn : Addr) (s : State), ∃ t, exec (.ldI nnn) s = .next t ∧ t.i.toNat = nnn.toNat ∧ t = { s with i := t.i }) ∧
  (∀ (x : RegNum) (s : State), ∃ t, exec (.addI x) s = .next t ∧
    t.i.toNat = (s.i.toNat + (s.reg x).toNat) % 65536 ∧ t = { s with i := t.i }) ∧
  ∀ (x : RegNum) (s : State), ∃ t, exec (.ldF x) s = .next t ∧
    t.i.toNat = 0x050 + 5 * (s.reg x).toNat ∧ t = { s with i := t.i }

/-- R174: the three digits, or the fault with nothing stored. -/
def Obligations.DecimalDigitsAreStoredAtI : Prop :=
  (∀ w : Word, opT w = 0xF → opKK w = 0x33 → decodeWord w = .ldB (opX w)) ∧
  (∀ (x : RegNum) (s : State), 0x0FFF < s.i.toNat + 2 → exec (.ldB x) s = .next { s with
      pc := s.pc - 2
      err := { code := .memRange, epc := s.pc - 2, eop := s.opcode, info := BitVec.ofNat 16 (max s.i.toNat 0x1000) } }) ∧
  ∀ (x : RegNum) (s : State), Memory.wf s.mem = true → s.i.toNat + 2 ≤ 0x0FFF → ∃ t, exec (.ldB x) s = .next t ∧
    (let v := (s.reg x).toNat
     let h := (Memory.read t.mem s.i.toNat).toNat
     let d := (Memory.read t.mem (s.i.toNat + 1)).toNat
     let o := (Memory.read t.mem (s.i.toNat + 2)).toNat
     100 * h + 10 * d + o = v ∧ h ≤ 2 ∧ d ≤ 9 ∧ o ≤ 9) ∧
    (∀ a, a < s.i.toNat ∨ s.i.toNat + 2 < a → Memory.read t.mem a = Memory.read s.mem a) ∧ t = { s with mem := t.mem }

/-- R175: `X + 1` registers, ascending, at the base address `I`, which stays (decision D30 of the spec); or the fault with
nothing stored. -/
def Obligations.StoreRegistersAtI : Prop :=
  (∀ w : Word, opT w = 0xF → opKK w = 0x55 → decodeWord w = .storeRegs (opX w)) ∧
  (∀ (x : RegNum) (s : State), 0x0FFF < s.i.toNat + x.toNat → exec (.storeRegs x) s = .next { s with
      pc := s.pc - 2
      err := { code := .memRange, epc := s.pc - 2, eop := s.opcode, info := BitVec.ofNat 16 (max s.i.toNat 0x1000) } }) ∧
  ∀ (x : RegNum) (s : State), Memory.wf s.mem = true → s.i.toNat + x.toNat ≤ 0x0FFF → ∃ t, exec (.storeRegs x) s = .next t ∧
    (∀ r : RegNum, r.toNat ≤ x.toNat → Memory.read t.mem (s.i.toNat + r.toNat) = s.reg r) ∧
    (∀ a, a < s.i.toNat ∨ s.i.toNat + x.toNat < a → Memory.read t.mem a = Memory.read s.mem a) ∧ t = { s with mem := t.mem }

/-- R176: `X + 1` registers, ascending, from the base address `I`, which stays (decision D30 of the spec); or the fault with
nothing loaded. -/
def Obligations.LoadRegistersFromI : Prop :=
  (∀ w : Word, opT w = 0xF → opKK w = 0x65 → decodeWord w = .loadRegs (opX w)) ∧
  (∀ (x : RegNum) (s : State), 0x0FFF < s.i.toNat + x.toNat → exec (.loadRegs x) s = .next { s with
      pc := s.pc - 2
      err := { code := .memRange, epc := s.pc - 2, eop := s.opcode, info := BitVec.ofNat 16 (max s.i.toNat 0x1000) } }) ∧
  ∀ (x : RegNum) (s : State), s.i.toNat + x.toNat ≤ 0x0FFF → ∃ t, exec (.loadRegs x) s = .next t ∧
    (∀ r : RegNum, r.toNat ≤ x.toNat → t.reg r = Memory.read s.mem (s.i.toNat + r.toNat)) ∧
    (∀ r : RegNum, x.toNat < r.toNat → t.reg r = s.reg r) ∧ t = { s with v := t.v }

/-- R176: `Fx55` and then `Fx65` with the same `X` and `I` restores the same values, whatever the registers held in between. -/
def Obligations.LoadAfterStoreRestoresTheRegisters : Prop :=
  ∀ (x : RegNum) (s t m u : State), Memory.wf s.mem = true → s.i.toNat + x.toNat ≤ 0x0FFF → exec (.storeRegs x) s = .next t →
    m.mem = t.mem → m.i = t.i → exec (.loadRegs x) m = .next u → ∀ r : RegNum, r.toNat ≤ x.toNat → u.reg r = s.reg r

/-- R56, R223 as a whole step: the four instructions that use `I` as an address stop the core with nothing changed but the latch when their block
passes `0x0FFF`; a draw of no rows cannot. That the model's copies of the inputs stay too is its choice (log entry 6). -/
def Obligations.MemoryRangeFaultsStopTheCore : Prop :=
  ∀ (s : State) (len : Nat), s.Running →
    (match s.current with
     | .drw _ _ n => len = n.toNat
     | .ldB _ => len = 3
     | .storeRegs x | .loadRegs x => len = x.toNat + 1
     | _ => False) →
    0 < len → 0x0FFF < s.i.toNat + len - 1 →
    step s = .next { s with err := { code := .memRange, epc := s.pc, eop := s.fetchWord, info := if s.i.toNat < 0x1000 then 0x1000 else s.i } }

/-- R61, which the spec marks as derived: the two bytes `Fx55` stores at the address of the next instruction are the word the next cycle fetches. -/
def Obligations.StoreIsSeenByTheNextFetch : Prop :=
  ∀ (x : RegNum) (s t : State), s.Inv → s.Running → s.current = .storeRegs x → 1 ≤ x.toNat → s.i.toNat + x.toNat ≤ 0x0FFF →
    s.i = s.pc + 2 → step s = .next t →
    t.pc = s.i ∧ t.fetchWord.toNat = 256 * (s.reg 0).toNat + (s.reg 1).toNat

/-! ## Display -/

/-- R190. -/
def Obligations.ClearTurnsEveryPixelOff : Prop :=
  (∀ w : Word, opT w = 0x0 → opN w = 0x0 → decodeWord w = .cls (opMid w)) ∧
  ∀ (g : Byte) (s : State), ∃ t, exec (.cls g) s = .next t ∧
    (∀ (y : Fin 32) (x : Fin 64), Screen.pixel t.fb y x = false) ∧ t = { s with fb := t.fb }

/-- R191, R192: row `r` is the byte at `I + r`, column `c` its bit `7 - c`; each set bit toggles the pixel at the origin plus (`c`, `r`), wrapped;
every other pixel stays; `VF` is 1 exactly when a pixel that was on is turned off, and 0 otherwise; or the fault with nothing drawn.
The case of no rows is R192 (c), which the spec marks as derived from the algorithm. -/
def Obligations.DrawXorsTheSpriteAndReportsACollision : Prop :=
  (∀ w : Word, opT w = 0xD → decodeWord w = .drw (opX w) (opY w) (opN w)) ∧
  (∀ (x y : RegNum) (n : Nibble) (s : State), 0 < n.toNat → 0x0FFF < s.i.toNat + n.toNat - 1 → exec (.drw x y n) s = .next { s with
      pc := s.pc - 2
      err := { code := .memRange, epc := s.pc - 2, eop := s.opcode, info := BitVec.ofNat 16 (max s.i.toNat 0x1000) } }) ∧
  ∀ (x y : RegNum) (n : Nibble) (s : State), n.toNat = 0 ∨ s.i.toNat + n.toNat - 1 ≤ 0x0FFF → ∃ t, exec (.drw x y n) s = .next t ∧
    (∀ r c : Nat, r < n.toNat → c < 8 →
      Screen.pixel t.fb (wrapRow ((s.reg y).toNat % 32 + r)) (wrapCol ((s.reg x).toNat % 64 + c)) =
        xor (Screen.pixel s.fb (wrapRow ((s.reg y).toNat % 32 + r)) (wrapCol ((s.reg x).toNat % 64 + c)))
          ((Memory.read s.mem (s.i.toNat + r)).getLsbD (7 - c))) ∧
    (∀ (py : Fin 32) (px : Fin 64),
      (∀ r c : Nat, r < n.toNat → c < 8 →
        ¬ (py = wrapRow ((s.reg y).toNat % 32 + r) ∧ px = wrapCol ((s.reg x).toNat % 64 + c))) →
      Screen.pixel t.fb py px = Screen.pixel s.fb py px) ∧
    (t.reg regF = 0 ∨ t.reg regF = 1) ∧
    (t.reg regF = 1 ↔ ∃ (py : Fin 32) (px : Fin 64), Screen.pixel s.fb py px = true ∧ Screen.pixel t.fb py px = false) ∧
    (∀ r, r ≠ regF → t.reg r = s.reg r) ∧ t = { s with v := t.v, fb := t.fb }

/-- R193 (W6): drawing is an involution on the framebuffer. The second draw runs in any state with the same sprite bytes and the same origin. -/
def Obligations.DrawTwiceRestoresTheScreen : Prop :=
  ∀ (x y : RegNum) (n : Nibble) (s t m u : State), (n.toNat = 0 ∨ s.i.toNat + n.toNat - 1 ≤ 0x0FFF) → exec (.drw x y n) s = .next t →
    m.fb = t.fb → m.i = s.i → (∀ r, r < n.toNat → Memory.read m.mem (s.i.toNat + r) = Memory.read s.mem (s.i.toNat + r)) →
    (m.reg x).toNat % 64 = (s.reg x).toNat % 64 → (m.reg y).toNat % 32 = (s.reg y).toNat % 32 →
    exec (.drw x y n) m = .next u → u.fb = s.fb

/-! ## Keypad and timers -/

/-- R200, R201, R225, R127. -/
def Obligations.KeySkipsTestTheKeyNumberedByTheRegister : Prop :=
  (∀ w : Word, opT w = 0xE → (opN w = 0xE → decodeWord w = .skp (opX w) (opY w)) ∧ (opN w = 0x1 → decodeWord w = .sknp (opX w) (opY w))) ∧
  ∀ (x : RegNum) (g : Nibble) (s : State),
    ((s.reg x).toNat ≤ 15 →
      (∃ t, exec (.skp x g) s = .next t ∧
        t.pc = (if s.keys.getLsbD (s.reg x).toNat = true then s.pc + 2 else s.pc) ∧ t = { s with pc := t.pc }) ∧
      (∃ t, exec (.sknp x g) s = .next t ∧
        t.pc = (if s.keys.getLsbD (s.reg x).toNat = false then s.pc + 2 else s.pc) ∧ t = { s with pc := t.pc })) ∧
    (15 < (s.reg x).toNat → ∀ i ∈ [Instr.skp x g, Instr.sknp x g],
      exec i s = .next { s with
        pc := s.pc - 2, err := { code := .keyRange, epc := s.pc - 2, eop := s.opcode, info := (s.reg x).zeroExtend 16 } })

/-- R202: the least pressed key, or the same instruction again. -/
def Obligations.KeyWaitTakesTheLeastKeyOrRepeats : Prop :=
  (∀ w : Word, opT w = 0xF → opKK w = 0x0A → decodeWord w = .ldVxK (opX w)) ∧
  ∀ (x : RegNum) (s : State),
    (∀ k, k < 16 → s.keys.getLsbD k = true → (∀ j, j < k → s.keys.getLsbD j = false) →
      ∃ t, exec (.ldVxK x) s = .next t ∧ (t.reg x).toNat = k ∧ (∀ r, r ≠ x → t.reg r = s.reg r) ∧ t = { s with v := t.v }) ∧
    (s.keys = 0 → exec (.ldVxK x) s = .next { s with pc := s.pc - 2 })

/-- R202 (b), R105 as a whole cycle: with no key down `PC` is net unchanged and the timers tick, `OPCODE` is the cycle's word, and nothing else of the
core changes. The record of the inputs in `keys` and `rnd` and the count of samples are the model's own (log entries 1, 2). -/
def Obligations.KeyWaitCycleWithoutKeysOnlyTicks : Prop :=
  ∀ (x : RegNum) (s : State) (rnd : Byte), s.Running → s.current = .ldVxK x → ∃ t, cycle 0 rnd s = .next t ∧
    t.pc = s.pc ∧ t.dt.toNat = s.dt.toNat - 1 ∧ t.st.toNat = s.st.toNat - 1 ∧
    t = { s with dt := t.dt, st := t.st, keys := 0, rnd := rnd, samples := s.samples + 1, opcode := s.fetchWord }

/-- R203, R204, R205. -/
def Obligations.TimerMovesReadAndSetTheTimers : Prop :=
  (∀ w : Word, opT w = 0xF → (opKK w = 0x07 → decodeWord w = .ldVxDt (opX w)) ∧
    (opKK w = 0x15 → decodeWord w = .ldDtVx (opX w)) ∧ (opKK w = 0x18 → decodeWord w = .ldStVx (opX w))) ∧
  ∀ (x : RegNum) (s : State),
    (∃ t, exec (.ldVxDt x) s = .next t ∧ t.reg x = s.dt ∧ (∀ r, r ≠ x → t.reg r = s.reg r) ∧ t = { s with v := t.v }) ∧
    (∃ t, exec (.ldDtVx x) s = .next t ∧ t.dt = s.reg x ∧ t = { s with dt := t.dt }) ∧
    (∃ t, exec (.ldStVx x) s = .next t ∧ t.st = s.reg x ∧ t = { s with st := t.st })

/-- R104 with R79: a no-op cycle writes `OPCODE`, adds 2 to `PC` and ticks the timers, and nothing else of the core changes; its handler changes nothing.
The record of the inputs and the count of samples are the model's own (log entries 1, 2). -/
def Obligations.NoOpOnlyAdvancesThePc : Prop :=
  (∀ (w : Word) (s : State), exec (.nop w) s = .next s) ∧
  ∀ (w : Word) (s : State) (keys : BitVec 16) (rnd : Byte), s.Running → s.current = .nop w → ∃ t, cycle keys rnd s = .next t ∧
    t.opcode = w ∧ t.pc.toNat = s.pc.toNat + 2 ∧ t.dt.toNat = s.dt.toNat - 1 ∧ t.st.toNat = s.st.toNat - 1 ∧
    t = { s with pc := t.pc, dt := t.dt, st := t.st, opcode := t.opcode, keys := keys, rnd := rnd, samples := s.samples + 1 }

/-! ## Reset, load, end of run -/

/-- R35, R251 for every `FONT`: the state after reset, item by item. -/
def Obligations.ResetLeavesTheListedValues : Prop :=
  ∀ font : Vector Byte 80, let s := State.resetWith font
    (∀ r, s.reg r = 0) ∧ s.i = 0 ∧ s.pc = 0x0200 ∧
    (∀ k : Fin 80, Memory.read s.mem (0x050 + k.val) = font[k]) ∧
    (∀ a, a < 0x050 ∨ 0x0A0 ≤ a → Memory.read s.mem a = 0) ∧
    (∀ k : Fin 16, s.stack[k] = 0) ∧ s.sp.val = 0 ∧ s.dt = 0 ∧ s.st = 0 ∧
    (∀ (y : Fin 32) (x : Fin 64), Screen.pixel s.fb y x = false) ∧ s.opcode = 0 ∧ s.err = Err.clear

/-- The model's choice (log entry 3, from the default table of R36): `State.reset` is reset with the default font. -/
def Obligations.ResetIsResetWithTheDefaultFont : Prop :=
  ∀ font : Vector Byte 80, font.toList = defaultFont → State.resetWith font = State.reset

/-- R255, R256, R257: the image goes to `0x200` and up, nothing else changes; an image over 3584 bytes is rejected. -/
def Obligations.LoadCopiesTheImageOrRejectsIt : Prop :=
  (∀ (image : List Byte) (s : State), Memory.wf s.mem = true → image.length ≤ 3584 → ∃ t, s.load image = some t ∧
    (∀ (j : Nat) (b : Byte), image[j]? = some b → Memory.read t.mem (0x200 + j) = b) ∧
    (∀ a, a < 0x200 ∨ 0x200 + image.length ≤ a → Memory.read t.mem a = Memory.read s.mem a) ∧ t = { s with mem := t.mem }) ∧
  (∀ (image : List Byte) (s : State), 3584 < image.length → s.load image = none) ∧
  ∀ (font : Vector Byte 80) (image : List Byte),
    (image.length ≤ 3584 → (State.resetWith font).load image = some (State.launch font image)) ∧
    (3584 < image.length → State.launch font image = State.resetWith font)

/-- R262, R121: once a run is at rest, a step changes nothing of the core but the timers (and the inputs and `OPCODE` of the cycle), and it stays at rest.
The record of the inputs and the count of samples are the model's own (log entries 1, 2). -/
def Obligations.SelfJumpIsAStableRest : Prop :=
  ∀ s : State, s.AtRest → ∃ t, step s = .next t ∧ t.AtRest ∧
    t = { s with dt := t.dt, st := t.st, keys := t.keys, rnd := t.rnd, samples := t.samples, opcode := s.fetchWord }
end

