-- ==== Sys2Proof/Laws/Decode.lean ====
section
/-! SUPPORT. The bits and the fields of an encoded word, and of a word read from bytes. -/

namespace Sys2Proof

/-! ## Bits -/

/-- The bits of a word put together from nibbles. -/
theorem getLsbD_encodeXY (t x y n : Nibble) (i : Nat) :
    (encodeXY t x y n).getLsbD i =
      if i < 4 then n.getLsbD i else if i < 8 then y.getLsbD (i - 4) else if i < 12 then x.getLsbD (i - 8) else t.getLsbD (i - 12) := by
  refine (BitVec.getLsbD_append (x := (t ++ x ++ y : BitVec (4 + 4 + 4))) (y := n)).trans ?_
  rw [BitVec.getLsbD_append, BitVec.getLsbD_append]
  split_ifs <;> first | rfl | omega

/-- The bits of a word put together from two nibbles and a byte. -/
theorem getLsbD_encodeXK (t x : Nibble) (kk : Byte) (i : Nat) :
    (encodeXK t x kk).getLsbD i = if i < 8 then kk.getLsbD i else if i < 12 then x.getLsbD (i - 8) else t.getLsbD (i - 12) := by
  refine (BitVec.getLsbD_append (x := (t ++ x : BitVec (4 + 4))) (y := kk)).trans ?_
  rw [BitVec.getLsbD_append]
  split_ifs <;> first | rfl | omega

/-- The bits of a word put together from a nibble and an address. -/
theorem getLsbD_encodeA (t : Nibble) (nnn : Addr) (i : Nat) :
    (encodeA t nnn).getLsbD i = if i < 12 then nnn.getLsbD i else t.getLsbD (i - 12) := by
  show BitVec.getLsbD (t ++ nnn : BitVec (4 + 12)) i = _
  simp only [BitVec.getLsbD_append]

/-- The bits of a family 0 word. -/
theorem getLsbD_encodeZ (g : Byte) (n : Nibble) (i : Nat) :
    (encodeZ g n).getLsbD i = if i < 4 then n.getLsbD i else if i < 12 then g.getLsbD (i - 4) else (0x0#4).getLsbD (i - 12) := by
  refine (BitVec.getLsbD_append (x := (0x0#4 ++ g : BitVec (4 + 8))) (y := n)).trans ?_
  rw [BitVec.getLsbD_append]
  split_ifs <;> first | rfl | omega

/-- The bits of a word read from two bytes. -/
theorem getLsbD_wordOfBytes (hi lo : Byte) (i : Nat) :
    (wordOfBytes hi lo).getLsbD i = if i < 8 then lo.getLsbD i else hi.getLsbD (i - 8) := by
  show BitVec.getLsbD (hi ++ lo : BitVec (8 + 8)) i = _
  simp only [BitVec.getLsbD_append]

/-- A word read from two bytes, as a number: the byte at the lower address counts 256 times. -/
theorem toNat_wordOfBytes (hi lo : Byte) : (wordOfBytes hi lo).toNat = 256 * hi.toNat + lo.toNat := by
  show BitVec.toNat (hi ++ lo : BitVec (8 + 8)) = _
  rw [BitVec.toNat_append, ← Nat.shiftLeft_add_eq_or_of_lt lo.isLt, Nat.shiftLeft_eq]
  omega

/-- The two bytes of a word give it back. -/
@[simp] theorem wordOfBytes_hiByte_loByte (w : Word) : wordOfBytes (hiByte w) (loByte w) = w := by
  apply BitVec.eq_of_getLsbD_eq
  intro i hi
  rw [getLsbD_wordOfBytes]
  simp only [hiByte, loByte, BitVec.getLsbD_extractLsb']
  split
  · simp [*]
  · have h1 : i - 8 < 8 := by omega
    have h2 : 8 + (i - 8) = i := by omega
    simp [h1, h2]

/-! ## Fields -/

/-- `T`. -/
@[simp] theorem opT_encodeXY (t x y n : Nibble) : opT (encodeXY t x y n) = t := by
  apply BitVec.eq_of_getLsbD_eq
  intro i hi
  simp only [opT, BitVec.getLsbD_extractLsb', getLsbD_encodeXY]
  interval_cases i <;> rfl

/-- `X`. -/
@[simp] theorem opX_encodeXY (t x y n : Nibble) : opX (encodeXY t x y n) = x := by
  apply BitVec.eq_of_getLsbD_eq
  intro i hi
  simp only [opX, BitVec.getLsbD_extractLsb', getLsbD_encodeXY]
  interval_cases i <;> rfl

/-- `Y`. -/
@[simp] theorem opY_encodeXY (t x y n : Nibble) : opY (encodeXY t x y n) = y := by
  apply BitVec.eq_of_getLsbD_eq
  intro i hi
  simp only [opY, BitVec.getLsbD_extractLsb', getLsbD_encodeXY]
  interval_cases i <;> rfl

/-- `N`. -/
@[simp] theorem opN_encodeXY (t x y n : Nibble) : opN (encodeXY t x y n) = n := by
  apply BitVec.eq_of_getLsbD_eq
  intro i hi
  simp only [opN, BitVec.getLsbD_extractLsb', getLsbD_encodeXY]
  interval_cases i <;> rfl

/-- `T`. -/
@[simp] theorem opT_encodeXK (t x : Nibble) (kk : Byte) : opT (encodeXK t x kk) = t := by
  apply BitVec.eq_of_getLsbD_eq
  intro i hi
  simp only [opT, BitVec.getLsbD_extractLsb', getLsbD_encodeXK]
  interval_cases i <;> rfl

/-- `X`. -/
@[simp] theorem opX_encodeXK (t x : Nibble) (kk : Byte) : opX (encodeXK t x kk) = x := by
  apply BitVec.eq_of_getLsbD_eq
  intro i hi
  simp only [opX, BitVec.getLsbD_extractLsb', getLsbD_encodeXK]
  interval_cases i <;> rfl

/-- `KK`. -/
@[simp] theorem opKK_encodeXK (t x : Nibble) (kk : Byte) : opKK (encodeXK t x kk) = kk := by
  apply BitVec.eq_of_getLsbD_eq
  intro i hi
  simp only [opKK, BitVec.getLsbD_extractLsb', getLsbD_encodeXK]
  interval_cases i <;> rfl

/-- `T`. -/
@[simp] theorem opT_encodeA (t : Nibble) (nnn : Addr) : opT (encodeA t nnn) = t := by
  apply BitVec.eq_of_getLsbD_eq
  intro i hi
  simp only [opT, BitVec.getLsbD_extractLsb', getLsbD_encodeA]
  interval_cases i <;> rfl

/-- `NNN`. -/
@[simp] theorem opNNN_encodeA (t : Nibble) (nnn : Addr) : opNNN (encodeA t nnn) = nnn := by
  apply BitVec.eq_of_getLsbD_eq
  intro i hi
  simp only [opNNN, BitVec.getLsbD_extractLsb', getLsbD_encodeA]
  interval_cases i <;> rfl

/-- `T` is 0. -/
@[simp] theorem opT_encodeZ (g : Byte) (n : Nibble) : opT (encodeZ g n) = 0x0 := by
  apply BitVec.eq_of_getLsbD_eq
  intro i hi
  simp only [opT, BitVec.getLsbD_extractLsb', getLsbD_encodeZ]
  interval_cases i <;> rfl

/-- The ignored bits. -/
@[simp] theorem opMid_encodeZ (g : Byte) (n : Nibble) : opMid (encodeZ g n) = g := by
  apply BitVec.eq_of_getLsbD_eq
  intro i hi
  simp only [opMid, BitVec.getLsbD_extractLsb', getLsbD_encodeZ]
  interval_cases i <;> rfl

/-- `N`. -/
@[simp] theorem opN_encodeZ (g : Byte) (n : Nibble) : opN (encodeZ g n) = n := by
  apply BitVec.eq_of_getLsbD_eq
  intro i hi
  simp only [opN, BitVec.getLsbD_extractLsb', getLsbD_encodeZ]
  interval_cases i <;> rfl

/-! ## A word from its own fields -/

/-- Four nibbles. -/
theorem encodeXY_fields (w : Word) : encodeXY (opT w) (opX w) (opY w) (opN w) = w := by
  apply BitVec.eq_of_getLsbD_eq
  intro i hi
  simp only [opT, opX, opY, opN, BitVec.getLsbD_extractLsb', getLsbD_encodeXY]
  interval_cases i <;> rfl

/-- Two nibbles and a byte. -/
theorem encodeXK_fields (w : Word) : encodeXK (opT w) (opX w) (opKK w) = w := by
  apply BitVec.eq_of_getLsbD_eq
  intro i hi
  simp only [opT, opX, opKK, BitVec.getLsbD_extractLsb', getLsbD_encodeXK]
  interval_cases i <;> rfl

/-- A nibble and an address. -/
theorem encodeA_fields (w : Word) : encodeA (opT w) (opNNN w) = w := by
  apply BitVec.eq_of_getLsbD_eq
  intro i hi
  simp only [opT, opNNN, BitVec.getLsbD_extractLsb', getLsbD_encodeA]
  interval_cases i <;> rfl

/-- Family 0. -/
theorem encodeZ_fields (w : Word) (h : opT w = 0x0) : encodeZ (opMid w) (opN w) = w := by
  apply BitVec.eq_of_getLsbD_eq
  intro i hi
  have hT : ∀ k, (opT w).getLsbD k = false := by rw [h]; simp
  simp only [opT, BitVec.getLsbD_extractLsb'] at hT
  simp only [opMid, opN, BitVec.getLsbD_extractLsb', getLsbD_encodeZ]
  interval_cases i <;> first | rfl | exact (hT 0).symm | exact (hT 1).symm | exact (hT 2).symm | exact (hT 3).symm

/-! ## Masks -/

/-- The mask of a direct handler keeps `T` (R78). -/
theorem and_F000 (w : Word) : w &&& 0xF000 = encodeXY (opT w) 0 0 0 := by
  apply BitVec.eq_of_getLsbD_eq
  intro i hi
  simp only [opT, BitVec.getLsbD_and, BitVec.getLsbD_extractLsb', getLsbD_encodeXY]
  interval_cases i <;> simp

/-- The mask of a secondary table keyed by the low nibble keeps `T` and `N` (R78). -/
theorem and_F00F (w : Word) : w &&& 0xF00F = encodeXY (opT w) 0 0 (opN w) := by
  apply BitVec.eq_of_getLsbD_eq
  intro i hi
  simp only [opT, opN, BitVec.getLsbD_and, BitVec.getLsbD_extractLsb', getLsbD_encodeXY]
  interval_cases i <;> simp

/-- The mask of the secondary table keyed by the low byte keeps `T` and `KK` (R78). -/
theorem and_F0FF (w : Word) : w &&& 0xF0FF = encodeXK (opT w) 0 (opKK w) := by
  apply BitVec.eq_of_getLsbD_eq
  intro i hi
  simp only [opT, opKK, BitVec.getLsbD_and, BitVec.getLsbD_extractLsb', getLsbD_encodeXK]
  interval_cases i <;> simp

/-- No two rows of the opcode map match one word: where both masks look, the rows differ (R78). As a computation. -/
theorem definedRows_disjoint_all :
    (definedRows.all fun r => definedRows.all fun r' => r == r' || (r.2 &&& r'.1) != (r'.2 &&& r.1)) = true := by
  decide +kernel

/-- No two rows of the opcode map match one word. -/
theorem definedRows_disjoint {r r' : Word × Word} (hr : r ∈ definedRows) (hr' : r' ∈ definedRows) {w : Word}
    (h : w &&& r.1 = r.2) (h' : w &&& r'.1 = r'.2) : r = r' := by
  have := List.all_eq_true.1 (List.all_eq_true.1 definedRows_disjoint_all r hr) r' hr'
  have e : r.2 &&& r'.1 = r'.2 &&& r.1 := by
    rw [← h, ← h', BitVec.and_assoc, BitVec.and_assoc, BitVec.and_comm r.1]
  simpa [e] using this

end Sys2Proof
end

