-- ==== Sys2Proof/Laws/State.lean ====
section
/-! SUPPORT. One lemma per field per update of the state, so that no proof unfolds a record update. -/

namespace Sys2Proof.Machine

/-! ## `State.setReg` -/

@[simp] theorem State.setReg_i (s : State) (x : RegNum) (b : Byte) : (s.setReg x b).i = s.i := rfl
@[simp] theorem State.setReg_pc (s : State) (x : RegNum) (b : Byte) : (s.setReg x b).pc = s.pc := rfl
@[simp] theorem State.setReg_mem (s : State) (x : RegNum) (b : Byte) : (s.setReg x b).mem = s.mem := rfl
@[simp] theorem State.setReg_stack (s : State) (x : RegNum) (b : Byte) : (s.setReg x b).stack = s.stack := rfl
@[simp] theorem State.setReg_sp (s : State) (x : RegNum) (b : Byte) : (s.setReg x b).sp = s.sp := rfl
@[simp] theorem State.setReg_dt (s : State) (x : RegNum) (b : Byte) : (s.setReg x b).dt = s.dt := rfl
@[simp] theorem State.setReg_st (s : State) (x : RegNum) (b : Byte) : (s.setReg x b).st = s.st := rfl
@[simp] theorem State.setReg_fb (s : State) (x : RegNum) (b : Byte) : (s.setReg x b).fb = s.fb := rfl
@[simp] theorem State.setReg_keys (s : State) (x : RegNum) (b : Byte) : (s.setReg x b).keys = s.keys := rfl
@[simp] theorem State.setReg_opcode (s : State) (x : RegNum) (b : Byte) : (s.setReg x b).opcode = s.opcode := rfl
@[simp] theorem State.setReg_err (s : State) (x : RegNum) (b : Byte) : (s.setReg x b).err = s.err := rfl
@[simp] theorem State.setReg_rnd (s : State) (x : RegNum) (b : Byte) : (s.setReg x b).rnd = s.rnd := rfl
@[simp] theorem State.setReg_samples (s : State) (x : RegNum) (b : Byte) : (s.setReg x b).samples = s.samples := rfl
@[simp] theorem State.setReg_draws (s : State) (x : RegNum) (b : Byte) : (s.setReg x b).draws = s.draws := rfl

/-! ## `State.setFlag` -/

@[simp] theorem State.setFlag_i (s : State) (c : Bool) : (s.setFlag c).i = s.i := rfl
@[simp] theorem State.setFlag_pc (s : State) (c : Bool) : (s.setFlag c).pc = s.pc := rfl
@[simp] theorem State.setFlag_mem (s : State) (c : Bool) : (s.setFlag c).mem = s.mem := rfl
@[simp] theorem State.setFlag_stack (s : State) (c : Bool) : (s.setFlag c).stack = s.stack := rfl
@[simp] theorem State.setFlag_sp (s : State) (c : Bool) : (s.setFlag c).sp = s.sp := rfl
@[simp] theorem State.setFlag_dt (s : State) (c : Bool) : (s.setFlag c).dt = s.dt := rfl
@[simp] theorem State.setFlag_st (s : State) (c : Bool) : (s.setFlag c).st = s.st := rfl
@[simp] theorem State.setFlag_fb (s : State) (c : Bool) : (s.setFlag c).fb = s.fb := rfl
@[simp] theorem State.setFlag_keys (s : State) (c : Bool) : (s.setFlag c).keys = s.keys := rfl
@[simp] theorem State.setFlag_opcode (s : State) (c : Bool) : (s.setFlag c).opcode = s.opcode := rfl
@[simp] theorem State.setFlag_err (s : State) (c : Bool) : (s.setFlag c).err = s.err := rfl
@[simp] theorem State.setFlag_rnd (s : State) (c : Bool) : (s.setFlag c).rnd = s.rnd := rfl
@[simp] theorem State.setFlag_samples (s : State) (c : Bool) : (s.setFlag c).samples = s.samples := rfl
@[simp] theorem State.setFlag_draws (s : State) (c : Bool) : (s.setFlag c).draws = s.draws := rfl

/-! ## `State.tick` -/

@[simp] theorem State.tick_v (s : State) : (s.tick).v = s.v := rfl
@[simp] theorem State.tick_i (s : State) : (s.tick).i = s.i := rfl
@[simp] theorem State.tick_pc (s : State) : (s.tick).pc = s.pc := rfl
@[simp] theorem State.tick_mem (s : State) : (s.tick).mem = s.mem := rfl
@[simp] theorem State.tick_stack (s : State) : (s.tick).stack = s.stack := rfl
@[simp] theorem State.tick_sp (s : State) : (s.tick).sp = s.sp := rfl
@[simp] theorem State.tick_dt (s : State) : (s.tick).dt = tickByte s.dt := rfl
@[simp] theorem State.tick_st (s : State) : (s.tick).st = tickByte s.st := rfl
@[simp] theorem State.tick_fb (s : State) : (s.tick).fb = s.fb := rfl
@[simp] theorem State.tick_keys (s : State) : (s.tick).keys = s.keys := rfl
@[simp] theorem State.tick_opcode (s : State) : (s.tick).opcode = s.opcode := rfl
@[simp] theorem State.tick_err (s : State) : (s.tick).err = s.err := rfl
@[simp] theorem State.tick_rnd (s : State) : (s.tick).rnd = s.rnd := rfl
@[simp] theorem State.tick_samples (s : State) : (s.tick).samples = s.samples := rfl
@[simp] theorem State.tick_draws (s : State) : (s.tick).draws = s.draws := rfl

/-! ## `State.raise` -/

@[simp] theorem State.raise_v (s : State) (c : ErrCode) (w : Word) : (s.raise c w).v = s.v := rfl
@[simp] theorem State.raise_i (s : State) (c : ErrCode) (w : Word) : (s.raise c w).i = s.i := rfl
@[simp] theorem State.raise_pc (s : State) (c : ErrCode) (w : Word) : (s.raise c w).pc = s.pc - 2 := rfl
@[simp] theorem State.raise_mem (s : State) (c : ErrCode) (w : Word) : (s.raise c w).mem = s.mem := rfl
@[simp] theorem State.raise_stack (s : State) (c : ErrCode) (w : Word) : (s.raise c w).stack = s.stack := rfl
@[simp] theorem State.raise_sp (s : State) (c : ErrCode) (w : Word) : (s.raise c w).sp = s.sp := rfl
@[simp] theorem State.raise_dt (s : State) (c : ErrCode) (w : Word) : (s.raise c w).dt = s.dt := rfl
@[simp] theorem State.raise_st (s : State) (c : ErrCode) (w : Word) : (s.raise c w).st = s.st := rfl
@[simp] theorem State.raise_fb (s : State) (c : ErrCode) (w : Word) : (s.raise c w).fb = s.fb := rfl
@[simp] theorem State.raise_keys (s : State) (c : ErrCode) (w : Word) : (s.raise c w).keys = s.keys := rfl
@[simp] theorem State.raise_opcode (s : State) (c : ErrCode) (w : Word) : (s.raise c w).opcode = s.opcode := rfl
@[simp] theorem State.raise_err (s : State) (c : ErrCode) (w : Word) : (s.raise c w).err = { code := c, epc := s.pc - 2, eop := s.opcode, info := w } := rfl
@[simp] theorem State.raise_rnd (s : State) (c : ErrCode) (w : Word) : (s.raise c w).rnd = s.rnd := rfl
@[simp] theorem State.raise_samples (s : State) (c : ErrCode) (w : Word) : (s.raise c w).samples = s.samples := rfl
@[simp] theorem State.raise_draws (s : State) (c : ErrCode) (w : Word) : (s.raise c w).draws = s.draws := rfl

/-! ## `State.raiseFetch` -/

@[simp] theorem State.raiseFetch_v (s : State) : (s.raiseFetch).v = s.v := rfl
@[simp] theorem State.raiseFetch_i (s : State) : (s.raiseFetch).i = s.i := rfl
@[simp] theorem State.raiseFetch_pc (s : State) : (s.raiseFetch).pc = s.pc := rfl
@[simp] theorem State.raiseFetch_mem (s : State) : (s.raiseFetch).mem = s.mem := rfl
@[simp] theorem State.raiseFetch_stack (s : State) : (s.raiseFetch).stack = s.stack := rfl
@[simp] theorem State.raiseFetch_sp (s : State) : (s.raiseFetch).sp = s.sp := rfl
@[simp] theorem State.raiseFetch_dt (s : State) : (s.raiseFetch).dt = s.dt := rfl
@[simp] theorem State.raiseFetch_st (s : State) : (s.raiseFetch).st = s.st := rfl
@[simp] theorem State.raiseFetch_fb (s : State) : (s.raiseFetch).fb = s.fb := rfl
@[simp] theorem State.raiseFetch_keys (s : State) : (s.raiseFetch).keys = s.keys := rfl
@[simp] theorem State.raiseFetch_opcode (s : State) : (s.raiseFetch).opcode = s.opcode := rfl
@[simp] theorem State.raiseFetch_err (s : State) : (s.raiseFetch).err = { code := .fetchRange, epc := s.pc, eop := 0, info := s.pc } := rfl
@[simp] theorem State.raiseFetch_rnd (s : State) : (s.raiseFetch).rnd = s.rnd := rfl
@[simp] theorem State.raiseFetch_samples (s : State) : (s.raiseFetch).samples = s.samples := rfl
@[simp] theorem State.raiseFetch_draws (s : State) : (s.raiseFetch).draws = s.draws := rfl

/-! ## `State.beginCycle` -/

@[simp] theorem State.beginCycle_v (s : State) (k : BitVec 16) (r : Byte) : (s.beginCycle k r).v = s.v := rfl
@[simp] theorem State.beginCycle_i (s : State) (k : BitVec 16) (r : Byte) : (s.beginCycle k r).i = s.i := rfl
@[simp] theorem State.beginCycle_pc (s : State) (k : BitVec 16) (r : Byte) : (s.beginCycle k r).pc = s.pc + 2 := rfl
@[simp] theorem State.beginCycle_mem (s : State) (k : BitVec 16) (r : Byte) : (s.beginCycle k r).mem = s.mem := rfl
@[simp] theorem State.beginCycle_stack (s : State) (k : BitVec 16) (r : Byte) : (s.beginCycle k r).stack = s.stack := rfl
@[simp] theorem State.beginCycle_sp (s : State) (k : BitVec 16) (r : Byte) : (s.beginCycle k r).sp = s.sp := rfl
@[simp] theorem State.beginCycle_dt (s : State) (k : BitVec 16) (r : Byte) : (s.beginCycle k r).dt = s.dt := rfl
@[simp] theorem State.beginCycle_st (s : State) (k : BitVec 16) (r : Byte) : (s.beginCycle k r).st = s.st := rfl
@[simp] theorem State.beginCycle_fb (s : State) (k : BitVec 16) (r : Byte) : (s.beginCycle k r).fb = s.fb := rfl
@[simp] theorem State.beginCycle_keys (s : State) (k : BitVec 16) (r : Byte) : (s.beginCycle k r).keys = k := rfl
@[simp] theorem State.beginCycle_opcode (s : State) (k : BitVec 16) (r : Byte) : (s.beginCycle k r).opcode = s.fetchWord := rfl
@[simp] theorem State.beginCycle_err (s : State) (k : BitVec 16) (r : Byte) : (s.beginCycle k r).err = s.err := rfl
@[simp] theorem State.beginCycle_rnd (s : State) (k : BitVec 16) (r : Byte) : (s.beginCycle k r).rnd = r := rfl
@[simp] theorem State.beginCycle_samples (s : State) (k : BitVec 16) (r : Byte) : (s.beginCycle k r).samples = s.samples + 1 := rfl
@[simp] theorem State.beginCycle_draws (s : State) (k : BitVec 16) (r : Byte) : (s.beginCycle k r).draws = s.draws := rfl

/-! ## `State.skipIf` -/

@[simp] theorem State.skipIf_v (s : State) (c : Bool) : (s.skipIf c).v = s.v := rfl
@[simp] theorem State.skipIf_i (s : State) (c : Bool) : (s.skipIf c).i = s.i := rfl
@[simp] theorem State.skipIf_pc (s : State) (c : Bool) : (s.skipIf c).pc = if c then s.pc + 2 else s.pc := rfl
@[simp] theorem State.skipIf_mem (s : State) (c : Bool) : (s.skipIf c).mem = s.mem := rfl
@[simp] theorem State.skipIf_stack (s : State) (c : Bool) : (s.skipIf c).stack = s.stack := rfl
@[simp] theorem State.skipIf_sp (s : State) (c : Bool) : (s.skipIf c).sp = s.sp := rfl
@[simp] theorem State.skipIf_dt (s : State) (c : Bool) : (s.skipIf c).dt = s.dt := rfl
@[simp] theorem State.skipIf_st (s : State) (c : Bool) : (s.skipIf c).st = s.st := rfl
@[simp] theorem State.skipIf_fb (s : State) (c : Bool) : (s.skipIf c).fb = s.fb := rfl
@[simp] theorem State.skipIf_keys (s : State) (c : Bool) : (s.skipIf c).keys = s.keys := rfl
@[simp] theorem State.skipIf_opcode (s : State) (c : Bool) : (s.skipIf c).opcode = s.opcode := rfl
@[simp] theorem State.skipIf_err (s : State) (c : Bool) : (s.skipIf c).err = s.err := rfl
@[simp] theorem State.skipIf_rnd (s : State) (c : Bool) : (s.skipIf c).rnd = s.rnd := rfl
@[simp] theorem State.skipIf_samples (s : State) (c : Bool) : (s.skipIf c).samples = s.samples := rfl
@[simp] theorem State.skipIf_draws (s : State) (c : Bool) : (s.skipIf c).draws = s.draws := rfl

/-! ## `V[i]` after an update -/

/-- `V[x]` after a write of `V[x]`. -/
@[simp] theorem State.reg_setReg_same (s : State) (x : RegNum) (b : Byte) : (s.setReg x b).reg x = b := by
  simp [State.reg, State.setReg]

/-- Another register after a write of `V[x]`. -/
@[simp] theorem State.reg_setReg_ne (s : State) {x r : RegNum} (b : Byte) (h : r ≠ x) : (s.setReg x b).reg r = s.reg r := by
  have : x.toNat ≠ r.toNat := fun e => h (BitVec.eq_of_toNat_eq e.symm)
  simp [State.reg, State.setReg, Vector.getElem_set_ne, this]

/-- Any register after a write of `V[x]`. -/
theorem State.reg_setReg (s : State) (x r : RegNum) (b : Byte) : (s.setReg x b).reg r = if r = x then b else s.reg r := by
  split
  · subst r; simp
  · simp [*]

/-- Any register after a write of the flag. -/
theorem State.reg_setFlag (s : State) (r : RegNum) (c : Bool) : (s.setFlag c).reg r = if r = regF then flagByte c else s.reg r :=
  s.reg_setReg regF r _

/-- `VF` after a write of the flag. -/
@[simp] theorem State.reg_setFlag_same (s : State) (c : Bool) : (s.setFlag c).reg regF = flagByte c :=
  s.reg_setReg_same regF _

/-- Another register after a write of the flag. -/
@[simp] theorem State.reg_setFlag_ne (s : State) {r : RegNum} (c : Bool) (h : r ≠ regF) : (s.setFlag c).reg r = s.reg r :=
  s.reg_setReg_ne _ h

/-- The flag byte as a number. -/
theorem toNat_flagByte (c : Bool) : (flagByte c).toNat = if c then 1 else 0 := by
  cases c <;> rfl

/-- The bit shifted out to the right is the remainder by 2. -/
theorem toNat_flagByte_lowBit (b : Byte) : (flagByte (lowBit b)).toNat = b.toNat % 2 := by
  revert b; decide +kernel

/-- The bit shifted out to the left is the quotient by 128. -/
theorem toNat_flagByte_highBit (b : Byte) : (flagByte (highBit b)).toNat = b.toNat / 128 := by
  revert b; decide +kernel

/-- An address operand as a number. -/
theorem toNat_addrWord (nnn : Addr) : (addrWord nnn).toNat = nnn.toNat := by
  simp [addrWord]; omega

/-- A zero-extended byte as a number. -/
theorem toNat_byteWord (b : Byte) : (byteWord b).toNat = b.toNat := by
  simp [byteWord]; omega

/-- `V` is the same vector, so `V[r]` is the same register. -/
theorem State.reg_congr {s t : State} (h : t.v = s.v) (r : RegNum) : t.reg r = s.reg r := by
  simp [State.reg, h]

@[simp] theorem State.tick_reg (s : State) (q : RegNum) : (s.tick).reg q = s.reg q := rfl
@[simp] theorem State.raise_reg (s : State) (c : ErrCode) (w : Word) (q : RegNum) : (s.raise c w).reg q = s.reg q := rfl
@[simp] theorem State.raiseFetch_reg (s : State) (q : RegNum) : (s.raiseFetch).reg q = s.reg q := rfl
@[simp] theorem State.beginCycle_reg (s : State) (k : BitVec 16) (r : Byte) (q : RegNum) : (s.beginCycle k r).reg q = s.reg q := rfl
@[simp] theorem State.skipIf_reg (s : State) (c : Bool) (q : RegNum) : (s.skipIf c).reg q = s.reg q := rfl

/-- A write of `V[x]` leaves everything but `V`. -/
theorem State.setReg_frame (s : State) (x : RegNum) (b : Byte) : s.setReg x b = { s with v := (s.setReg x b).v } := rfl

/-- The load of registers `0` to `n - 1` leaves everything but `V`. -/
theorem State.loadFirstRegs_frame (s : State) (a n : Nat) : s.loadFirstRegs a n = { s with v := (s.loadFirstRegs a n).v } := by
  induction n with
  | zero => rfl
  | succ n ih =>
    show (s.loadFirstRegs a n).setReg _ _ = _
    rw [State.setReg_frame, ih]
    rfl

/-- The registers after the load of `0` to `n - 1`. -/
theorem State.reg_loadFirstRegs (s : State) (a n : Nat) (hn : n ≤ 16) (r : RegNum) :
    (s.loadFirstRegs a n).reg r = if r.toNat < n then Memory.read s.mem (a + r.toNat) else s.reg r := by
  induction n with
  | zero => rfl
  | succ n ih =>
    have hk : (BitVec.ofNat 4 n).toNat = n := by simp; omega
    show ((s.loadFirstRegs a n).setReg _ _).reg r = _
    rw [State.reg_setReg, ih (by omega)]
    by_cases h : r = BitVec.ofNat 4 n
    · subst h; simp [hk]
    · have : r.toNat ≠ n := fun e => h (BitVec.eq_of_toNat_eq (by rw [hk, e]))
      simp only [h, if_false]
      by_cases h' : r.toNat < n
      · simp [h', Nat.lt_succ_of_lt h']
      · have : ¬ r.toNat < n + 1 := by omega
        simp [h', this]

/-- The `k`-th of the first `n` registers. -/
theorem State.getElem?_firstRegs (s : State) (n : Nat) (r : RegNum) (h : r.toNat < n) : (s.firstRegs n)[r.toNat]? = some (s.reg r) := by
  have := r.isLt
  simp [State.firstRegs, State.reg, h]

/-- How many they are. -/
theorem State.length_firstRegs (s : State) (n : Nat) (h : n ≤ 16) : (s.firstRegs n).length = n := by
  simp [State.firstRegs, h]

/-! ## The call stack -/

/-- A push with room. -/
theorem State.push_of_lt (s : State) (w : Word) (h : s.sp.val < 16) :
    s.push w = some { s with stack := s.stack.set s.sp.val w h, sp := ⟨s.sp.val + 1, by omega⟩ } := by
  simp [State.push, h]

/-- A push on a full stack. -/
theorem State.push_full (s : State) (w : Word) (h : s.sp.val = 16) : s.push w = none := by
  simp [State.push, h]

/-- A pop with an entry. -/
theorem State.pop_of_pos (s : State) (h : 0 < s.sp.val) :
    s.pop = some (s.stack[s.sp.val - 1]'(by omega), { s with sp := ⟨s.sp.val - 1, by omega⟩ }) := by
  simp [State.pop, h]

/-- A pop of an empty stack. -/
theorem State.pop_empty (s : State) (h : s.sp.val = 0) : s.pop = none := by
  simp [State.pop, h]

/-! ## Range tests and faults -/

/-- What a block instruction answers. -/
theorem State.withBlock_eq (s : State) (n : Nat) (t : State) :
    s.withBlock n t = if n = 0 ∨ s.i.toNat + n ≤ memSize then t else s.raise .memRange s.memRangeInfo := by
  simp [State.withBlock, State.blockInRange]

/-- The block is in range. -/
theorem State.withBlock_ok (s : State) (n : Nat) (t : State) (h : n = 0 ∨ s.i.toNat + n ≤ memSize) : s.withBlock n t = t := by
  simp [State.withBlock_eq, h]

/-- The block is out of range. -/
theorem State.withBlock_fault (s : State) (n : Nat) (t : State) (h0 : 0 < n) (h : memSize < s.i.toNat + n) :
    s.withBlock n t = s.raise .memRange s.memRangeInfo := by
  have : ¬ (n = 0 ∨ s.i.toNat + n ≤ memSize) := by omega
  simp [State.withBlock_eq, this]

/-- A core is halted exactly when its latch holds a cause. -/
theorem State.halted_iff (s : State) : s.halted = true ↔ s.err.code ≠ .noFault := by
  simp [State.halted]

/-- Raising a fault halts. -/
theorem State.raise_halted (s : State) (c : ErrCode) (w : Word) (h : c ≠ .noFault) : (s.raise c w).halted = true := by
  simp [State.halted, h]

/-- The end of a cycle without a fault. -/
theorem State.finishCycle_ok (s t : State) (h : t.err.code = .noFault) : s.finishCycle t = t.tick := by
  simp [State.finishCycle, State.halted, h]

/-- The end of a cycle with a fault. -/
theorem State.finishCycle_fault (s t : State) (h : t.err.code ≠ .noFault) : s.finishCycle t = { s with err := t.err } := by
  simp [State.finishCycle, State.halted, h]

/-- One decrement, floored at 0. -/
theorem toNat_tickByte (b : Byte) : (tickByte b).toNat = b.toNat - 1 := by
  unfold tickByte
  split
  · subst b; rfl
  · rename_i h
    have : b.toNat ≠ 0 := fun e => h (BitVec.eq_of_toNat_eq e)
    bv_omega

/-- A load of registers neither reads nor writes the call stack. -/
theorem State.loadFirstRegs_with_stack (s : State) (stack : Vector Word 16) (sp : Fin 17) (a n : Nat) :
    ({ s with stack := stack, sp := sp } : State).loadFirstRegs a n = { s.loadFirstRegs a n with stack := stack, sp := sp } := by
  induction n with
  | zero => rfl
  | succ n ih => simp only [State.loadFirstRegs, ih]; rfl

end Sys2Proof.Machine
end

