-- ==== Sys2Proof/Laws/Exec.lean ====
section
/-! SUPPORT. What a handler, a cycle and a step can do, said once. -/

namespace Sys2Proof.Machine

/-- Every handler answers a next state: no instruction stops the machine, a fault included. -/
theorem exec_next (i : Instr) (s : State) : ∃ t, exec i s = .next t := by
  cases i <;> exact ⟨_, rfl⟩

/-- A block instruction: its effect when the block is in range, else the fault. -/
theorem State.withBlock_cases (s t : State) (n : Nat) :
    ((n = 0 ∨ s.i.toNat + n ≤ memSize) ∧ s.withBlock n t = t) ∨
    ((0 < n ∧ memSize < s.i.toNat + n) ∧ s.withBlock n t = s.raise .memRange s.memRangeInfo) := by
  by_cases h : n = 0 ∨ s.i.toNat + n ≤ memSize
  · exact .inl ⟨h, s.withBlock_ok n t h⟩
  · exact .inr ⟨by omega, s.withBlock_fault n t (by omega) (by omega)⟩

/-- A key skip: a skip on a key number up to 15, else the fault. -/
theorem State.skipKey_cases (s : State) (x : RegNum) (b : Bool) :
    ((s.reg x).toNat ≤ 15 ∧ s.skipKey x b = s.skipIf (s.key (s.reg x).toNat == b)) ∨
    (15 < (s.reg x).toNat ∧ s.skipKey x b = s.raise .keyRange (byteWord (s.reg x))) := by
  unfold State.skipKey
  split
  · exact .inr ⟨by assumption, rfl⟩
  · exact .inl ⟨by omega, rfl⟩

/-- Everything a return can do. -/
theorem execRet_cases {s t : State} (h : execRet s = .next t) :
    (∃ hp : 0 < s.sp.val, t = { s with pc := s.stack[s.sp.val - 1]'(by omega), sp := ⟨s.sp.val - 1, by omega⟩ }) ∨
    (s.sp.val = 0 ∧ t = s.raise .stackUnderflow 0) := by
  cases h
  by_cases hp : 0 < s.sp.val
  · exact .inl ⟨hp, by rw [State.pop_of_pos s hp]⟩
  · exact .inr ⟨by omega, by rw [State.pop_empty s (by omega)]⟩

/-- Everything a call can do. -/
theorem execCall_cases {nnn : Addr} {s t : State} (h : execCall nnn s = .next t) :
    (∃ hp : s.sp.val < 16,
      t = { s with pc := addrWord nnn, stack := s.stack.set s.sp.val s.pc hp, sp := ⟨s.sp.val + 1, by omega⟩ }) ∨
    (s.sp.val = 16 ∧ t = s.raise .stackOverflow (addrWord nnn)) := by
  cases h
  by_cases hp : s.sp.val < 16
  · exact .inl ⟨hp, by rw [State.push_of_lt s s.pc hp]⟩
  · exact .inr ⟨by omega, by rw [State.push_full s s.pc (by omega)]⟩

/-- Everything a key wait can do. -/
theorem execLdVxK_cases {x : RegNum} {s t : State} (h : execLdVxK x s = .next t) :
    (∃ k, s.lowestKey = some k ∧ t = s.setReg x (BitVec.ofNat 8 k)) ∨ (s.lowestKey = none ∧ t = { s with pc := s.pc - 2 }) := by
  cases h
  cases s.lowestKey
  · exact .inr ⟨rfl, rfl⟩
  · exact .inl ⟨_, rfl, rfl⟩

/-- Everything a decimal store can do. -/
theorem execLdB_cases {x : RegNum} {s t : State} (h : execLdB x s = .next t) :
    (s.i.toNat + 3 ≤ memSize ∧ t = { s with mem := Memory.writeBytes s.mem s.i.toNat (bcdDigits (s.reg x)) }) ∨
    (memSize < s.i.toNat + 3 ∧ t = s.raise .memRange s.memRangeInfo) := by
  cases h
  rcases State.withBlock_cases s { s with mem := Memory.writeBytes s.mem s.i.toNat (bcdDigits (s.reg x)) } 3 with ⟨h, e⟩ | ⟨h, e⟩
  · exact .inl ⟨by omega, e⟩
  · exact .inr ⟨h.2, e⟩

/-- Everything a store of registers can do. -/
theorem execStoreRegs_cases {x : RegNum} {s t : State} (h : execStoreRegs x s = .next t) :
    (s.i.toNat + x.toNat < memSize ∧
      t = { s with mem := Memory.writeBytes s.mem s.i.toNat (s.firstRegs (x.toNat + 1)) }) ∨
    (memSize ≤ s.i.toNat + x.toNat ∧ t = s.raise .memRange s.memRangeInfo) := by
  cases h
  rcases State.withBlock_cases s { s with mem := Memory.writeBytes s.mem s.i.toNat (s.firstRegs (x.toNat + 1)) } (x.toNat + 1)
    with ⟨h, e⟩ | ⟨h, e⟩
  · exact .inl ⟨by omega, e⟩
  · exact .inr ⟨by omega, e⟩

/-- Everything a load of registers can do. -/
theorem execLoadRegs_cases {x : RegNum} {s t : State} (h : execLoadRegs x s = .next t) :
    (s.i.toNat + x.toNat < memSize ∧ t = { s with v := (s.loadFirstRegs s.i.toNat (x.toNat + 1)).v }) ∨
    (memSize ≤ s.i.toNat + x.toNat ∧ t = s.raise .memRange s.memRangeInfo) := by
  cases h
  rcases State.withBlock_cases s (s.loadFirstRegs s.i.toNat (x.toNat + 1)) (x.toNat + 1) with ⟨h, e⟩ | ⟨h, e⟩
  · exact .inl ⟨by omega, e.trans (State.loadFirstRegs_frame ..)⟩
  · exact .inr ⟨by omega, e⟩

/-- Everything a draw can do. -/
theorem execDrw_cases {x y : RegNum} {n : Nibble} {s t : State} (h : execDrw x y n s = .next t) :
    ((n.toNat = 0 ∨ s.i.toNat + n.toNat ≤ memSize) ∧
      t = { s with
        v := (s.setFlag (s.drawn ((s.reg x).toNat % 64) ((s.reg y).toNat % 32) n.toNat).2).v
        fb := (s.drawn ((s.reg x).toNat % 64) ((s.reg y).toNat % 32) n.toNat).1 }) ∨
    ((0 < n.toNat ∧ memSize < s.i.toNat + n.toNat) ∧ t = s.raise .memRange s.memRangeInfo) := by
  cases h
  exact State.withBlock_cases s _ n.toNat

/-- Everything a skip on a pressed key can do. -/
theorem execSkp_cases {x : RegNum} {s t : State} (h : execSkp x s = .next t) :
    ((s.reg x).toNat ≤ 15 ∧ t = s.skipIf (s.key (s.reg x).toNat)) ∨
    (15 < (s.reg x).toNat ∧ t = s.raise .keyRange (byteWord (s.reg x))) := by
  cases h
  simpa using s.skipKey_cases x true

/-- Everything a skip on a released key can do. -/
theorem execSknp_cases {x : RegNum} {s t : State} (h : execSknp x s = .next t) :
    ((s.reg x).toNat ≤ 15 ∧ t = s.skipIf (!s.key (s.reg x).toNat)) ∨
    (15 < (s.reg x).toNat ∧ t = s.raise .keyRange (byteWord (s.reg x))) := by
  cases h
  simpa using s.skipKey_cases x false

/-- A handler either keeps the fault latch or raises a fault, and then that is all it does. -/
theorem exec_keeps_or_raises (i : Instr) (s t : State) (h : exec i s = .next t) :
    t.err = s.err ∨ ∃ c w, c ≠ ErrCode.noFault ∧ t = s.raise c w := by
  cases i
  case ret g => rcases execRet_cases h with ⟨_, rfl⟩ | ⟨_, rfl⟩; exacts [.inl rfl, .inr ⟨_, _, by decide, rfl⟩]
  case call nnn => rcases execCall_cases h with ⟨_, rfl⟩ | ⟨_, rfl⟩; exacts [.inl rfl, .inr ⟨_, _, by decide, rfl⟩]
  case ldB x => rcases execLdB_cases h with ⟨_, rfl⟩ | ⟨_, rfl⟩; exacts [.inl rfl, .inr ⟨_, _, by decide, rfl⟩]
  case storeRegs x => rcases execStoreRegs_cases h with ⟨_, rfl⟩ | ⟨_, rfl⟩; exacts [.inl rfl, .inr ⟨_, _, by decide, rfl⟩]
  case loadRegs x => rcases execLoadRegs_cases h with ⟨_, rfl⟩ | ⟨_, rfl⟩; exacts [.inl rfl, .inr ⟨_, _, by decide, rfl⟩]
  case drw x y n => rcases execDrw_cases h with ⟨_, rfl⟩ | ⟨_, rfl⟩; exacts [.inl rfl, .inr ⟨_, _, by decide, rfl⟩]
  case skp x g => rcases execSkp_cases h with ⟨_, rfl⟩ | ⟨_, rfl⟩; exacts [.inl rfl, .inr ⟨_, _, by decide, rfl⟩]
  case sknp x g => rcases execSknp_cases h with ⟨_, rfl⟩ | ⟨_, rfl⟩; exacts [.inl rfl, .inr ⟨_, _, by decide, rfl⟩]
  case ldVxK x => rcases execLdVxK_cases h with ⟨_, _, rfl⟩ | ⟨_, rfl⟩ <;> exact .inl rfl
  all_goals cases h; exact .inl rfl

/-- A halted cycle. -/
theorem cycle_halted (k : BitVec 16) (r : Byte) (s : State) (h : s.err.code ≠ .noFault) : cycle k r s = .next s := by
  simp [cycle, State.halted, h]

/-- A cycle that cannot fetch. -/
theorem cycle_fetchRange (k : BitVec 16) (r : Byte) (s : State) (h : s.err.code = .noFault) (hp : 0x0FFE < s.pc.toNat) :
    cycle k r s = .next s.raiseFetch := by
  simp [cycle, State.halted, h, State.fetchOutOfRange, hp]

/-- A cycle that fetches. -/
theorem cycle_run (k : BitVec 16) (r : Byte) (s t : State) (h : s.err.code = .noFault) (hp : s.pc.toNat ≤ 0x0FFE)
    (ht : exec (decodeWord s.fetchWord) (s.beginCycle k r) = .next t) : cycle k r s = .next (s.finishCycle t) := by
  have : ¬ 0x0FFE < s.pc.toNat := by omega
  simp [cycle, State.halted, h, State.fetchOutOfRange, this, ht]

/-- Everything a cycle can do: nothing, the fetch's fault, or a handler and the end of the cycle. -/
theorem cycle_cases (k : BitVec 16) (r : Byte) (s t : State) (h : cycle k r s = .next t) :
    (s.err.code ≠ .noFault ∧ t = s) ∨
    (s.err.code = .noFault ∧ 0x0FFE < s.pc.toNat ∧ t = s.raiseFetch) ∨
    (s.err.code = .noFault ∧ s.pc.toNat ≤ 0x0FFE ∧
      ∃ u, exec (decodeWord s.fetchWord) (s.beginCycle k r) = .next u ∧ t = s.finishCycle u) := by
  by_cases hc : s.err.code = .noFault
  · by_cases hp : s.pc.toNat ≤ 0x0FFE
    · obtain ⟨u, hu⟩ := exec_next (decodeWord s.fetchWord) (s.beginCycle k r)
      rw [cycle_run k r s u hc hp hu] at h
      cases h
      exact .inr (.inr ⟨hc, hp, u, hu, rfl⟩)
    · rw [cycle_fetchRange k r s hc (by omega)] at h
      cases h
      exact .inr (.inl ⟨hc, by omega, rfl⟩)
  · rw [cycle_halted k r s hc] at h
    cases h
    exact .inl ⟨hc, rfl⟩

/-- A step is a cycle with the free inputs. -/
theorem step_eq (s : State) : step s = cycle (Config.keySnapshot s.samples) (Config.randomByte s.draws) s := rfl

end Sys2Proof.Machine
end

