-- ==== Sys2Proof/Laws/Memory.lean ====
section
/-! SUPPORT. Memory: a read after a write, that a write leaves every other address alone, and that every operation keeps the canonical form. -/

namespace Sys2Proof.Machine

/-! ## The canonical form -/

/-- The canonical form of a cell and the cells after it. -/
theorem Memory.wfFrom_cons (lo a : Nat) (w : Byte) (m : Memory) :
    Memory.wfFrom lo ((a, w) :: m) = true ↔
      lo ≤ a ∧ a < memSize ∧ w ≠ Memory.initial a ∧ Memory.wfFrom (a + 1) m = true := by
  simp [Memory.wfFrom, and_assoc]

/-- A canonical form from `lo` is one from any lower address. -/
theorem Memory.wfFrom_mono {lo lo' : Nat} (h : lo' ≤ lo) : ∀ {m : Memory}, Memory.wfFrom lo m = true → Memory.wfFrom lo' m = true
  | [], _ => rfl
  | (a, w) :: m, hm => by
    rw [Memory.wfFrom_cons] at hm ⊢
    exact ⟨h.trans hm.1, hm.2⟩

/-- Below its first possible address a canonical memory reads as the reset contents. -/
theorem Memory.read_below {lo c : Nat} (hc : c < lo) : ∀ {m : Memory}, Memory.wfFrom lo m = true → Memory.read m c = Memory.initial c
  | [], _ => rfl
  | (a, w) :: m, hm => by
    rw [Memory.wfFrom_cons] at hm
    have : c ≠ a := by omega
    simp only [Memory.read, this, if_false]
    exact Memory.read_below (by omega) hm.2.2.2

/-- The empty memory. -/
theorem Memory.wf_nil : Memory.wf [] = true := rfl

/-- Inserting a cell keeps the canonical form. -/
theorem Memory.wfFrom_insert {a : Nat} (ha : a < memSize) (v : Byte) :
    ∀ {lo : Nat} {m : Memory}, lo ≤ a → Memory.wfFrom lo m = true → Memory.wfFrom lo (Memory.insert m a v) = true
  | lo, [], hlo, _ => by
    unfold Memory.insert
    split
    · rfl
    · rw [Memory.wfFrom_cons]; exact ⟨hlo, ha, by assumption, rfl⟩
  | lo, (b, w) :: m, hlo, hm => by
    have hm' := (Memory.wfFrom_cons ..).1 hm
    unfold Memory.insert
    split
    · split
      · exact hm
      · rw [Memory.wfFrom_cons]
        exact ⟨hlo, ha, by assumption, (Memory.wfFrom_cons ..).2 ⟨by omega, hm'.2⟩⟩
    · split
      · subst b
        split
        · exact Memory.wfFrom_mono (by omega) hm'.2.2.2
        · rw [Memory.wfFrom_cons]; exact ⟨hlo, ha, by assumption, hm'.2.2.2⟩
      · rw [Memory.wfFrom_cons]
        exact ⟨hm'.1, hm'.2.1, hm'.2.2.1, Memory.wfFrom_insert ha v (by omega) hm'.2.2.2⟩

/-- A store keeps the canonical form. -/
theorem Memory.wf_write {m : Memory} (hm : Memory.wf m = true) (a : Nat) (v : Byte) : Memory.wf (Memory.write m a v) = true := by
  unfold Memory.write
  split
  · exact Memory.wfFrom_insert (by assumption) v (Nat.zero_le _) hm
  · exact hm

/-- Stores at ascending addresses keep the canonical form. -/
theorem Memory.wf_writeBytes : ∀ {m : Memory} (_ : Memory.wf m = true) (a : Nat) (bs : List Byte), Memory.wf (Memory.writeBytes m a bs) = true
  | _, hm, _, [] => hm
  | _, hm, a, b :: bs => Memory.wf_writeBytes (Memory.wf_write hm a b) (a + 1) bs

/-! ## One byte -/

/-- Inserting a cell leaves every other address alone. -/
theorem Memory.read_insert_ne {a c : Nat} (h : c ≠ a) (v : Byte) : ∀ m : Memory, Memory.read (Memory.insert m a v) c = Memory.read m c
  | [] => by
    unfold Memory.insert
    split <;> simp [Memory.read, h]
  | (b, w) :: m => by
    unfold Memory.insert
    split
    · split <;> simp [Memory.read, h]
    · split
      · subst b
        split <;> simp [Memory.read, h]
      · simp [Memory.read, Memory.read_insert_ne h v m]

/-- The inserted cell reads back. -/
theorem Memory.read_insert_same {a : Nat} (v : Byte) :
    ∀ {lo : Nat} {m : Memory}, Memory.wfFrom lo m = true → Memory.read (Memory.insert m a v) a = v
  | _, [], _ => by
    unfold Memory.insert
    split <;> simp [Memory.read, *]
  | _, (b, w) :: m, hm => by
    rw [Memory.wfFrom_cons] at hm
    unfold Memory.insert
    split
    · rename_i hab
      split
      · rename_i hv
        have : a ≠ b := by omega
        simp only [Memory.read, this, if_false]
        rw [Memory.read_below (by omega) hm.2.2.2, hv]
      · simp [Memory.read]
    · split
      · subst b
        split
        · rename_i hv
          rw [Memory.read_below (by omega) hm.2.2.2, hv]
        · simp [Memory.read]
      · rename_i hab
        simp only [Memory.read, hab, if_false]
        exact Memory.read_insert_same v hm.2.2.2

/-- A store leaves every other address alone. -/
theorem Memory.read_write_ne (m : Memory) {a c : Nat} (h : c ≠ a) (v : Byte) : Memory.read (Memory.write m a v) c = Memory.read m c := by
  unfold Memory.write
  split
  · exact Memory.read_insert_ne h v m
  · rfl

/-- A stored byte reads back. -/
theorem Memory.read_write_same {m : Memory} (hm : Memory.wf m = true) {a : Nat} (ha : a < memSize) (v : Byte) :
    Memory.read (Memory.write m a v) a = v := by
  simp only [Memory.write, ha, if_true]
  exact Memory.read_insert_same v hm

/-! ## Blocks -/

/-- A block of stores leaves every address outside the block alone. -/
theorem Memory.read_writeBytes_outside {c : Nat} :
    ∀ (bs : List Byte) (m : Memory) (a : Nat), c < a ∨ a + bs.length ≤ c → Memory.read (Memory.writeBytes m a bs) c = Memory.read m c
  | [], _, _, _ => rfl
  | b :: bs, m, a, h => by
    simp only [List.length_cons] at h
    show Memory.read (Memory.writeBytes (Memory.write m a b) (a + 1) bs) c = _
    rw [Memory.read_writeBytes_outside bs _ _ (by omega), Memory.read_write_ne m (by omega)]

/-- The `k`-th byte of a block of stores reads back. -/
theorem Memory.read_writeBytes_inside {b : Byte} :
    ∀ (bs : List Byte) {m : Memory} (_ : Memory.wf m = true) (a k : Nat), a + bs.length ≤ memSize → bs[k]? = some b →
      Memory.read (Memory.writeBytes m a bs) (a + k) = b
  | [], _, _, _, _, _, hk => by simp at hk
  | d :: bs, m, hm, a, k, ha, hk => by
    simp only [List.length_cons] at ha
    show Memory.read (Memory.writeBytes (Memory.write m a d) (a + 1) bs) (a + k) = b
    cases k with
    | zero =>
      rw [Memory.read_writeBytes_outside bs _ _ (by omega)]
      simp only [List.getElem?_cons_zero, Option.some.injEq] at hk
      rw [Nat.add_zero, Memory.read_write_same hm (by omega), hk]
    | succ k =>
      have : a + (k + 1) = a + 1 + k := by omega
      rw [this]
      exact Memory.read_writeBytes_inside bs (Memory.wf_write hm a d) (a + 1) k (by omega) (by simpa using hk)

/-- The length of a block read. -/
theorem Memory.length_readBytes (m : Memory) : ∀ (n a : Nat), (Memory.readBytes m a n).length = n
  | 0, _ => rfl
  | n + 1, a => by simp [Memory.readBytes, Memory.length_readBytes m n (a + 1)]

/-- The `k`-th byte of a block read. -/
theorem Memory.getElem?_readBytes (m : Memory) : ∀ (n a k : Nat), k < n → (Memory.readBytes m a n)[k]? = some (Memory.read m (a + k))
  | 0, _, _, h => absurd h (Nat.not_lt_zero _)
  | n + 1, a, 0, _ => rfl
  | n + 1, a, k + 1, h => by
    have := Memory.getElem?_readBytes m n (a + 1) k (by omega)
    simp only [Memory.readBytes, List.getElem?_cons_succ, this]
    congr 2
    omega

end Sys2Proof.Machine
end

