-- ==== Sys2Proof/Laws/PerInstr.lean ====
section
/-! SUPPORT. The statement made of every instruction as syntax, and one lemma per constructor: the encoding of a well-formed instruction is a word of
its own row of the opcode map, and of no other row (spec/30_encoding.md R78, R79). -/

namespace Sys2Proof.Laws.RowMatch

/-- The encoding of `i` lies in the row of `i` and in no other. -/
def Statement (i : Instr) : Prop :=
  i.wellFormed = true → encode i &&& i.row.1 = i.row.2 ∧ ∀ r ∈ definedRows, encode i &&& r.1 = r.2 → r = i.row

/-- A word of a defined row is a word of no other row. -/
theorem of_row {i : Instr} (hm : i.row ∈ definedRows) (h : encode i &&& i.row.1 = i.row.2) : Statement i :=
  fun _ => ⟨h, fun _ hr hr' => definedRows_disjoint hr hm hr' h⟩

/-- A row of a direct handler, which looks at `T` alone. -/
theorem of_F000 {i : Instr} {t : Nibble} (hm : (0xF000, encodeXY t 0 0 0) ∈ definedRows) (hr : i.row = (0xF000, encodeXY t 0 0 0))
    (h : opT (encode i) = t) : Statement i :=
  of_row (by rwa [hr]) (by rw [hr, and_F000, h])

/-- A row of a secondary table keyed by the low nibble. -/
theorem of_F00F {i : Instr} {t n : Nibble} (hm : (0xF00F, encodeXY t 0 0 n) ∈ definedRows) (hr : i.row = (0xF00F, encodeXY t 0 0 n))
    (h : opT (encode i) = t) (h' : opN (encode i) = n) : Statement i :=
  of_row (by rwa [hr]) (by rw [hr, and_F00F, h, h'])

/-- A row of the secondary table keyed by the low byte. -/
theorem of_F0FF {i : Instr} {t : Nibble} {kk : Byte} (hm : (0xF0FF, encodeXK t 0 kk) ∈ definedRows) (hr : i.row = (0xF0FF, encodeXK t 0 kk))
    (h : opT (encode i) = t) (h' : opKK (encode i) = kk) : Statement i :=
  of_row (by rwa [hr]) (by rw [hr, and_F0FF, h, h'])

theorem cls (ign : Byte) : Statement (.cls ign) :=
  of_F00F (t := 0x0) (n := 0x0) (by decide) rfl (opT_encodeZ ..) (opN_encodeZ ..)

theorem ret (ign : Byte) : Statement (.ret ign) :=
  of_F00F (t := 0x0) (n := 0xE) (by decide) rfl (opT_encodeZ ..) (opN_encodeZ ..)

theorem jp (nnn : Addr) : Statement (.jp nnn) :=
  of_F000 (t := 0x1) (by decide) rfl (opT_encodeA ..)

theorem call (nnn : Addr) : Statement (.call nnn) :=
  of_F000 (t := 0x2) (by decide) rfl (opT_encodeA ..)

theorem seByte (x : RegNum) (kk : Byte) : Statement (.seByte x kk) :=
  of_F000 (t := 0x3) (by decide) rfl (opT_encodeXK ..)

theorem sneByte (x : RegNum) (kk : Byte) : Statement (.sneByte x kk) :=
  of_F000 (t := 0x4) (by decide) rfl (opT_encodeXK ..)

theorem seReg (x y : RegNum) (ign : Nibble) : Statement (.seReg x y ign) :=
  of_F000 (t := 0x5) (by decide) rfl (opT_encodeXY ..)

theorem ldByte (x : RegNum) (kk : Byte) : Statement (.ldByte x kk) :=
  of_F000 (t := 0x6) (by decide) rfl (opT_encodeXK ..)

theorem addByte (x : RegNum) (kk : Byte) : Statement (.addByte x kk) :=
  of_F000 (t := 0x7) (by decide) rfl (opT_encodeXK ..)

theorem ldReg (x y : RegNum) : Statement (.ldReg x y) :=
  of_F00F (t := 0x8) (n := 0x0) (by decide) rfl (opT_encodeXY ..) (opN_encodeXY ..)

theorem orReg (x y : RegNum) : Statement (.orReg x y) :=
  of_F00F (t := 0x8) (n := 0x1) (by decide) rfl (opT_encodeXY ..) (opN_encodeXY ..)

theorem andReg (x y : RegNum) : Statement (.andReg x y) :=
  of_F00F (t := 0x8) (n := 0x2) (by decide) rfl (opT_encodeXY ..) (opN_encodeXY ..)

theorem xorReg (x y : RegNum) : Statement (.xorReg x y) :=
  of_F00F (t := 0x8) (n := 0x3) (by decide) rfl (opT_encodeXY ..) (opN_encodeXY ..)

theorem addReg (x y : RegNum) : Statement (.addReg x y) :=
  of_F00F (t := 0x8) (n := 0x4) (by decide) rfl (opT_encodeXY ..) (opN_encodeXY ..)

theorem subReg (x y : RegNum) : Statement (.subReg x y) :=
  of_F00F (t := 0x8) (n := 0x5) (by decide) rfl (opT_encodeXY ..) (opN_encodeXY ..)

theorem shr (x y : RegNum) : Statement (.shr x y) :=
  of_F00F (t := 0x8) (n := 0x6) (by decide) rfl (opT_encodeXY ..) (opN_encodeXY ..)

theorem subn (x y : RegNum) : Statement (.subn x y) :=
  of_F00F (t := 0x8) (n := 0x7) (by decide) rfl (opT_encodeXY ..) (opN_encodeXY ..)

theorem shl (x y : RegNum) : Statement (.shl x y) :=
  of_F00F (t := 0x8) (n := 0xE) (by decide) rfl (opT_encodeXY ..) (opN_encodeXY ..)

theorem sneReg (x y : RegNum) (ign : Nibble) : Statement (.sneReg x y ign) :=
  of_F000 (t := 0x9) (by decide) rfl (opT_encodeXY ..)

theorem ldI (nnn : Addr) : Statement (.ldI nnn) :=
  of_F000 (t := 0xA) (by decide) rfl (opT_encodeA ..)

theorem jpV0 (nnn : Addr) : Statement (.jpV0 nnn) :=
  of_F000 (t := 0xB) (by decide) rfl (opT_encodeA ..)

theorem rnd (x : RegNum) (kk : Byte) : Statement (.rnd x kk) :=
  of_F000 (t := 0xC) (by decide) rfl (opT_encodeXK ..)

theorem drw (x y : RegNum) (n : Nibble) : Statement (.drw x y n) :=
  of_F000 (t := 0xD) (by decide) rfl (opT_encodeXY ..)

theorem skp (x : RegNum) (ign : Nibble) : Statement (.skp x ign) :=
  of_F00F (t := 0xE) (n := 0xE) (by decide) rfl (opT_encodeXY ..) (opN_encodeXY ..)

theorem sknp (x : RegNum) (ign : Nibble) : Statement (.sknp x ign) :=
  of_F00F (t := 0xE) (n := 0x1) (by decide) rfl (opT_encodeXY ..) (opN_encodeXY ..)

theorem ldVxDt (x : RegNum) : Statement (.ldVxDt x) :=
  of_F0FF (t := 0xF) (kk := 0x07) (by decide) rfl (opT_encodeXK ..) (opKK_encodeXK ..)

theorem ldVxK (x : RegNum) : Statement (.ldVxK x) :=
  of_F0FF (t := 0xF) (kk := 0x0A) (by decide) rfl (opT_encodeXK ..) (opKK_encodeXK ..)

theorem ldDtVx (x : RegNum) : Statement (.ldDtVx x) :=
  of_F0FF (t := 0xF) (kk := 0x15) (by decide) rfl (opT_encodeXK ..) (opKK_encodeXK ..)

theorem ldStVx (x : RegNum) : Statement (.ldStVx x) :=
  of_F0FF (t := 0xF) (kk := 0x18) (by decide) rfl (opT_encodeXK ..) (opKK_encodeXK ..)

theorem addI (x : RegNum) : Statement (.addI x) :=
  of_F0FF (t := 0xF) (kk := 0x1E) (by decide) rfl (opT_encodeXK ..) (opKK_encodeXK ..)

theorem ldF (x : RegNum) : Statement (.ldF x) :=
  of_F0FF (t := 0xF) (kk := 0x29) (by decide) rfl (opT_encodeXK ..) (opKK_encodeXK ..)

theorem ldB (x : RegNum) : Statement (.ldB x) :=
  of_F0FF (t := 0xF) (kk := 0x33) (by decide) rfl (opT_encodeXK ..) (opKK_encodeXK ..)

theorem storeRegs (x : RegNum) : Statement (.storeRegs x) :=
  of_F0FF (t := 0xF) (kk := 0x55) (by decide) rfl (opT_encodeXK ..) (opKK_encodeXK ..)

theorem loadRegs (x : RegNum) : Statement (.loadRegs x) :=
  of_F0FF (t := 0xF) (kk := 0x65) (by decide) rfl (opT_encodeXK ..) (opKK_encodeXK ..)

/-- The fallback row matches every word, and a no-op's word is in no other row. -/
theorem nop (w : Word) : Statement (.nop w) := by
  intro h
  refine ⟨by simp [Instr.row], fun r hr hr' => ?_⟩
  have := List.all_eq_true.1 h r hr
  simp_all [encode]

end Sys2Proof.Laws.RowMatch
end

