-- ==== Sys2Proof/Laws/Screen.lean ====
section
/-! SUPPORT. The framebuffer: what a toggle and a sprite draw do to every pixel, and when the draw reports a collision (spec/44_display.md R191, R192). -/

namespace Sys2Proof.Machine

/-- Every pixel of the blank screen is off. -/
@[simp] theorem Screen.pixel_blank (y : Fin 32) (x : Fin 64) : Screen.pixel Screen.blank y x = false := by
  simp [Screen.pixel, Screen.blank]

/-- A toggle turns its own pixel over and leaves every other pixel. -/
theorem Screen.pixel_toggle (fb : Screen) (y py : Fin 32) (x px : Fin 64) :
    Screen.pixel (Screen.toggle fb y x) py px = xor (Screen.pixel fb py px) (decide (py = y ∧ px = x)) := by
  unfold Screen.pixel Screen.toggle
  by_cases hy : py = y
  · subst hy
    by_cases hx : px = x
    · subst hx; simp
    · have : x.val ≠ px.val := fun e => hx (Fin.ext e.symm)
      simp [hx, Vector.getElem_set_ne, this]
  · have : y.val ≠ py.val := fun e => hy (Fin.ext e.symm)
    simp [hy, Vector.getElem_set_ne, this]

/-- Two screens with the same pixels are the same screen. -/
theorem Screen.ext_pixel {a b : Screen} (h : ∀ y x, Screen.pixel a y x = Screen.pixel b y x) : a = b := by
  apply Vector.ext
  intro y hy
  apply Vector.ext
  intro x hx
  exact h ⟨y, hy⟩ ⟨x, hx⟩

/-- The columns at distance below `n` to the right of `x0`, wrapped, whose bit in the row byte is set. -/
def Screen.colHit (b : Byte) (x0 n : Nat) (px : Fin 64) : Bool :=
  decide ((px.val + (64 - x0 % 64)) % 64 < n) && b.getLsbD (7 - (px.val + (64 - x0 % 64)) % 64)

/-- The pixels a sprite of bytes `bs` with its top left corner at column `x0` and row `y` toggles. -/
def Screen.spriteHit (bs : List Byte) (x0 y : Nat) (py : Fin 32) (px : Fin 64) : Bool :=
  match bs[(py.val + (32 - y % 32)) % 32]? with
  | some b => Screen.colHit b x0 8 px
  | none => false

/-- The column at distance `c`. -/
theorem Screen.col_eq_iff (x0 : Nat) {c : Nat} (hc : c < 64) (px : Fin 64) :
    px = wrapCol (x0 + c) ↔ (px.val + (64 - x0 % 64)) % 64 = c := by
  have := px.isLt
  rw [Fin.ext_iff]
  simp only [wrapCol]
  omega

/-- The row at distance `r`. -/
theorem Screen.row_eq_iff (y : Nat) {r : Nat} (hr : r < 32) (py : Fin 32) :
    py = wrapRow (y + r) ↔ (py.val + (32 - y % 32)) % 32 = r := by
  have := py.isLt
  rw [Fin.ext_iff]
  simp only [wrapRow]
  omega

/-- One more column. -/
theorem Screen.colHit_succ (b : Byte) (x0 : Nat) {n : Nat} (hn : n < 64) (px : Fin 64) :
    Screen.colHit b x0 (n + 1) px = xor (Screen.colHit b x0 n px) (decide (px = wrapCol (x0 + n)) && b.getLsbD (7 - n)) := by
  simp only [Screen.colHit, Screen.col_eq_iff x0 hn]
  generalize (px.val + (64 - x0 % 64)) % 64 = c
  by_cases h : c = n
  · subst h; simp
  · have : (c < n + 1) = (c < n) := by rw [eq_iff_iff]; omega
    simp [h, this]

/-- The pixels after one sprite row. -/
theorem Screen.pixel_drawCols (b : Byte) (x0 y : Nat) (p : Screen × Bool) (py : Fin 32) (px : Fin 64) :
    ∀ {n : Nat}, n ≤ 64 → Screen.pixel (Screen.drawCols b x0 y n p).1 py px =
      xor (Screen.pixel p.1 py px) (decide (py = wrapRow y) && Screen.colHit b x0 n px)
  | 0, _ => by simp [Screen.drawCols, Screen.colHit]
  | n + 1, hn => by
    have ih := Screen.pixel_drawCols b x0 y p py px (n := n) (by omega)
    rw [Screen.colHit_succ b x0 (by omega)]
    unfold Screen.drawCols
    simp only
    split
    · rename_i hb
      simp only [Screen.plot, Screen.pixel_toggle, ih, hb, Bool.and_true]
      by_cases h : py = wrapRow y <;> by_cases h' : px = wrapCol (x0 + n) <;> simp [h, h']
    · rename_i hb
      simp only [ih, Bool.not_eq_true] at hb ⊢
      simp [hb]

/-- The collision flag after one sprite row: cumulative, and set by a set bit over a pixel that was on. -/
theorem Screen.flag_drawCols (b : Byte) (x0 y : Nat) (p : Screen × Bool) :
    ∀ {n : Nat}, n ≤ 64 → ((Screen.drawCols b x0 y n p).2 = true ↔
      p.2 = true ∨ ∃ px, Screen.colHit b x0 n px = true ∧ Screen.pixel p.1 (wrapRow y) px = true)
  | 0, _ => by simp [Screen.drawCols, Screen.colHit]
  | n + 1, hn => by
    have ih := Screen.flag_drawCols b x0 y p (n := n) (by omega)
    have hpix : Screen.pixel (Screen.drawCols b x0 y n p).1 (wrapRow y) (wrapCol (x0 + n)) =
        Screen.pixel p.1 (wrapRow y) (wrapCol (x0 + n)) := by
      rw [Screen.pixel_drawCols b x0 y p _ _ (by omega)]
      have := (Screen.col_eq_iff x0 (show n < 64 by omega) (wrapCol (x0 + n))).1 rfl
      simp [Screen.colHit, this]
    have hsucc : ∀ px, Screen.colHit b x0 (n + 1) px = true ↔
        Screen.colHit b x0 n px = true ∨ (px = wrapCol (x0 + n) ∧ b.getLsbD (7 - n) = true) := by
      intro px
      simp only [Screen.colHit, Screen.col_eq_iff x0 (show n < 64 by omega), Bool.and_eq_true, decide_eq_true_eq]
      generalize (px.val + (64 - x0 % 64)) % 64 = c
      constructor
      · rintro ⟨h, hb⟩
        by_cases hc : c = n
        · subst hc; exact .inr ⟨rfl, hb⟩
        · exact .inl ⟨by omega, hb⟩
      · rintro (⟨h, hb⟩ | ⟨rfl, hb⟩)
        · exact ⟨by omega, hb⟩
        · exact ⟨by omega, hb⟩
    simp only [hsucc]
    unfold Screen.drawCols
    simp only
    split
    · rename_i hb
      simp only [Screen.plot, Bool.or_eq_true, ih, hpix, hb, and_true]
      constructor
      · rintro ((h | ⟨px, h, h'⟩) | h)
        · exact .inl h
        · exact .inr ⟨px, .inl h, h'⟩
        · exact .inr ⟨_, .inr rfl, h⟩
      · rintro (h | ⟨px, h | rfl, h'⟩)
        · exact .inl (.inl h)
        · exact .inl (.inr ⟨px, h, h'⟩)
        · exact .inr h'
    · rename_i hb
      rw [ih]
      simp [hb]

/-- The first row of a sprite apart from the others. -/
theorem Screen.spriteHit_cons (b : Byte) (bs : List Byte) (x0 y : Nat) (py : Fin 32) (px : Fin 64) :
    Screen.spriteHit (b :: bs) x0 y py px =
      if py = wrapRow y then Screen.colHit b x0 8 px else Screen.spriteHit bs x0 (y + 1) py px := by
  have h0 := Screen.row_eq_iff y (show 0 < 32 by omega) py
  rw [Nat.add_zero] at h0
  have := py.isLt
  simp only [Screen.spriteHit, h0]
  by_cases h : (py.val + (32 - y % 32)) % 32 = 0
  · simp [h]
  · obtain ⟨k, hk⟩ := Nat.exists_eq_succ_of_ne_zero h
    have : (py.val + (32 - (y + 1) % 32)) % 32 = k := by omega
    simp [hk, this]

/-- The row the first byte is drawn in is no row of the bytes after it. -/
theorem Screen.spriteHit_next (bs : List Byte) (x0 y : Nat) (hl : bs.length < 32) (px : Fin 64) :
    Screen.spriteHit bs x0 (y + 1) (wrapRow y) px = false := by
  have : ((wrapRow y).val + (32 - (y + 1) % 32)) % 32 = 31 := by simp only [wrapRow]; omega
  simp only [Screen.spriteHit, this]
  rw [List.getElem?_eq_none (by omega)]

/-- The pixels after a draw: each set bit toggles its pixel, wrapped; every other pixel stays. -/
theorem Screen.pixel_drawRows (x0 : Nat) (py : Fin 32) (px : Fin 64) :
    ∀ (bs : List Byte) (y : Nat) (p : Screen × Bool), bs.length ≤ 32 →
      Screen.pixel (Screen.drawRows x0 y bs p).1 py px = xor (Screen.pixel p.1 py px) (Screen.spriteHit bs x0 y py px)
  | [], _, _, _ => by simp [Screen.drawRows, Screen.spriteHit]
  | b :: bs, y, p, hl => by
    simp only [List.length_cons] at hl
    show Screen.pixel (Screen.drawRows x0 (y + 1) bs (Screen.drawCols b x0 y 8 p)).1 py px = _
    rw [Screen.pixel_drawRows x0 py px bs _ _ (by omega), Screen.pixel_drawCols b x0 y p py px (by omega),
      Screen.spriteHit_cons b bs x0 y]
    split
    · rename_i h; subst h; rw [Screen.spriteHit_next bs x0 y (by omega)]; simp
    · rename_i h; simp [h]

/-- The collision flag after a draw: set exactly when a set bit lies over a pixel that was on before the draw. -/
theorem Screen.flag_drawRows (x0 : Nat) :
    ∀ (bs : List Byte) (y : Nat) (p : Screen × Bool), bs.length ≤ 32 → ((Screen.drawRows x0 y bs p).2 = true ↔
      p.2 = true ∨ ∃ py px, Screen.spriteHit bs x0 y py px = true ∧ Screen.pixel p.1 py px = true)
  | [], _, _, _ => by simp [Screen.drawRows, Screen.spriteHit]
  | b :: bs, y, p, hl => by
    simp only [List.length_cons] at hl
    show (Screen.drawRows x0 (y + 1) bs (Screen.drawCols b x0 y 8 p)).2 = true ↔ _
    rw [Screen.flag_drawRows x0 bs _ _ (by omega), Screen.flag_drawCols b x0 y p (by omega)]
    simp only [Screen.spriteHit_cons b bs x0 y]
    constructor
    · rintro ((h | ⟨px, h, h'⟩) | ⟨py, px, h, h'⟩)
      · exact .inl h
      · exact .inr ⟨wrapRow y, px, by simpa using h, h'⟩
      · have hne : py ≠ wrapRow y := by
          rintro rfl; simp [Screen.spriteHit_next bs x0 y (show bs.length < 32 by omega)] at h
        rw [Screen.pixel_drawCols b x0 y p py px (by omega)] at h'
        exact .inr ⟨py, px, by simpa [hne] using h, by simpa [hne] using h'⟩
    · rintro (h | ⟨py, px, h, h'⟩)
      · exact .inl (.inl h)
      · by_cases hy : py = wrapRow y
        · subst hy; exact .inl (.inr ⟨px, by simpa using h, h'⟩)
        · refine .inr ⟨py, px, by simpa [hy] using h, ?_⟩
          rw [Screen.pixel_drawCols b x0 y p py px (by omega)]
          simpa [hy] using h'

end Sys2Proof.Machine
end

