-- ==== Sys2Proof/Tests/Slice0.lean ====
section
/-! SUPPORT. Tests of single steps, and a witness for the hypotheses of every statement. Expected values are those of spec/95_test_vectors.md
(the vector's id is named) or, for a word, of the formats and the map in spec/30_encoding.md R71 and R78. -/

namespace Sys2Proof.Tests

set_option Elab.async false

open Sys2Proof Sys2Proof.Machine

/-! ## Helpers -/

/-- `s` with some registers set. -/
def regs (rs : List (RegNum × Byte)) (s : State) : State := rs.foldl (fun s p => s.setReg p.1 p.2) s

/-- `s` with some bytes of memory set. -/
def poke (a : Nat) (bs : List Byte) (s : State) : State := { s with mem := Memory.writeBytes s.mem a bs }

/-- `s` with some pixels turned over. -/
def lit (ps : List (Fin 32 × Fin 64)) (s : State) : State := { s with fb := ps.foldl (fun fb p => Screen.toggle fb p.1 p.2) s.fb }

/-- `s` with a word at `PC`. -/
def placed (w : Word) (s : State) : State := poke s.pc.toNat [hiByte w, loByte w] s

/-- What `f` reads off the state after one cycle on the word `w`. -/
def ran {α : Type} (w : Word) (keys : BitVec 16) (rnd : Byte) (s : State) (f : State → α) : Option α :=
  match cycle keys rnd (placed w s) with
  | .next t => some (f t)
  | _ => none

/-- What `f` reads off the state after one handler. -/
def did {α : Type} (i : Instr) (s : State) (f : State → α) : Option α :=
  match exec i s with
  | .next t => some (f t)
  | _ => none

/-- What `f` reads off the state after one step. -/
def stepped {α : Type} (s : State) (f : State → α) : Option α :=
  match step s with
  | .next t => some (f t)
  | _ => none

/-- The reset state. -/
abbrev s0 : State := State.reset

/-! ## Well-formedness -/

/-- R79: a no-op may not carry the word of a defined instruction, be it an alias (R80). -/
theorem test_wellFormed_refuses : (Instr.nop 0x00E0).wellFormed = false ∧ (Instr.nop 0x0120).wellFormed = false ∧
    (Instr.nop 0x8125).wellFormed = false ∧ (Instr.nop 0xF165).wellFormed = false := by decide

/-- R79: it may carry any other word. -/
theorem test_wellFormed_accepts : (Instr.nop 0x0001).wellFormed = true ∧ (Instr.nop 0x8018).wellFormed = true ∧
    (Instr.nop 0xE190).wellFormed = true ∧ (Instr.nop 0xF1FF).wellFormed = true ∧ (Instr.cls 0xFF).wellFormed = true := by decide

/-! ## Decoding: a word written out for every constructor -/

theorem test_decode_family0 : decodeWord 0b0000_0000_1110_0000 = .cls 0x0E ∧ decodeWord 0b0000_0000_1110_1110 = .ret 0x0E := by decide

theorem test_decode_control : decodeWord 0b0001_1010_1011_1100 = .jp 0xABC ∧ decodeWord 0b0010_0010_0000_1010 = .call 0x20A ∧
    decodeWord 0b1011_0011_0000_0000 = .jpV0 0x300 := by decide

theorem test_decode_skips : decodeWord 0b0011_0011_0010_1010 = .seByte 3 0x2A ∧ decodeWord 0b0100_0011_0010_1010 = .sneByte 3 0x2A ∧
    decodeWord 0b0101_0001_0010_0000 = .seReg 1 2 0 ∧ decodeWord 0b1001_0001_0010_0111 = .sneReg 1 2 7 := by decide

theorem test_decode_bytes : decodeWord 0b0110_1010_0111_1111 = .ldByte 0xA 0x7F ∧ decodeWord 0b0111_0001_0000_0010 = .addByte 1 2 ∧
    decodeWord 0b1100_0001_0000_1111 = .rnd 1 0x0F := by decide

theorem test_decode_family8 : decodeWord 0b1000_0001_0010_0000 = .ldReg 1 2 ∧ decodeWord 0b1000_0001_0010_0001 = .orReg 1 2 ∧
    decodeWord 0b1000_0001_0010_0010 = .andReg 1 2 ∧ decodeWord 0b1000_0001_0010_0011 = .xorReg 1 2 ∧
    decodeWord 0b1000_0001_0010_0100 = .addReg 1 2 ∧ decodeWord 0b1000_0001_0010_0101 = .subReg 1 2 ∧
    decodeWord 0b1000_0001_0010_0110 = .shr 1 2 ∧ decodeWord 0b1000_0001_0010_0111 = .subn 1 2 ∧
    decodeWord 0b1000_0001_0010_1110 = .shl 1 2 := by decide

theorem test_decode_index_draw : decodeWord 0b1010_0010_1111_0000 = .ldI 0x2F0 ∧ decodeWord 0b1101_0000_0001_0010 = .drw 0 1 2 := by decide

theorem test_decode_familyE : decodeWord 0b1110_0010_1001_1110 = .skp 2 9 ∧ decodeWord 0b1110_0010_1010_0001 = .sknp 2 0xA := by decide

theorem test_decode_familyF : decodeWord 0b1111_0010_0000_0111 = .ldVxDt 2 ∧ decodeWord 0b1111_0001_0000_1010 = .ldVxK 1 ∧
    decodeWord 0b1111_0000_0001_0101 = .ldDtVx 0 ∧ decodeWord 0b1111_0011_0001_1000 = .ldStVx 3 ∧
    decodeWord 0b1111_0010_0001_1110 = .addI 2 ∧ decodeWord 0b1111_0000_0010_1001 = .ldF 0 ∧
    decodeWord 0b1111_0101_0011_0011 = .ldB 5 ∧ decodeWord 0b1111_0001_0101_0101 = .storeRegs 1 ∧
    decodeWord 0b1111_0010_0110_0101 = .loadRegs 2 := by decide

/-- R79: the words of T-DEC-1, 2, 6, 9, 12, 13, 15. -/
theorem test_decode_noop : decodeWord 0x8018 = .nop 0x8018 ∧ decodeWord 0xF1FF = .nop 0xF1FF ∧ decodeWord 0x0001 = .nop 0x0001 ∧
    decodeWord 0xE190 = .nop 0xE190 ∧ decodeWord 0xF000 = .nop 0xF000 ∧ decodeWord 0x00FB = .nop 0x00FB ∧ decodeWord 0x812F = .nop 0x812F := by decide

/-- R70: the first byte is the most significant one (T-DEC-10), and one byte is no instruction. -/
theorem test_decode_bytes_in_order : decode [0x12, 0x34, 0x56] = .ok (.jp 0x234, [0x56]) ∧ decode [0x12] = .error .truncated ∧
    decodeTableWord 16 0x1234 = some (.jp 0x234) ∧ encodeBytes (.jp 0x234) = [0x12, 0x34] := by decide

/-! ## Single cycles -/

/-- The host's placing of an instruction: the very next step runs it. -/
theorem test_withFetchWord : decodeTableWord 16 0x6A7F = some (.ldByte 0xA 0x7F) ∧
    stepped (State.reset.withFetchWord 16 0x6A7F) (fun t => (t.reg 0xA, t.pc)) = some (0x7F, 0x202) := by decide +kernel

/-- R252, T-DEC-3: with nothing loaded the word at `0x200` is `0000`, a CLS. -/
theorem test_first_step : stepped State.reset (fun t => (t.pc, t.opcode)) = some (0x202, 0) := by decide +kernel

/-- T-DEC-1 (undefined word: the timers tick). -/
theorem test_nop : ran 0x8018 0 0 { regs [(0, 7)] s0 with dt := 5 } (fun t => (t.pc, t.dt, t.reg 0)) = some (0x202, 4, 7) := by decide +kernel

/-- T-DSP-1. -/
theorem test_cls : ran 0x00E0 0 0 (lit [(0, 0), (31, 63), (10, 20)] (regs [(0xF, 1)] s0)) (fun t => (decide (t.fb = Screen.blank), t.reg 0xF)) =
    some (true, 1) := by decide +kernel

/-- T-CF-1. -/
theorem test_ret : ran 0x00EE 0 0 { s0 with pc := 0x20C, sp := 1, stack := s0.stack.set 0 0x206 } (fun t => (t.pc, t.sp)) = some (0x206, 0) := by
  decide +kernel

/-- T-FLT-2: nothing changes but the latch. -/
theorem test_ret_underflow : ran 0x00EE 0 0 { s0 with st := 2 } (fun t => (t.err, t.pc, t.st)) =
    some ({ code := .stackUnderflow, epc := 0x200, eop := 0x00EE, info := 0 }, 0x200, 2) := by decide +kernel

/-- T-CF-2. -/
theorem test_jp : ran 0x1ABC 0 0 s0 State.pc = some 0xABC := by decide +kernel

/-- T-CF-4: the sixteenth nested call. -/
theorem test_call_last : ran 0x2300 0 0 { s0 with sp := 15 } (fun t => (t.pc, t.sp, t.stack[15])) = some (0x300, 16, 0x202) := by decide +kernel

/-- T-FLT-1. -/
theorem test_call_overflow : ran 0x2300 0 0 { s0 with sp := 16, dt := 5 } (fun t => (t.err, t.pc, t.sp, t.dt)) =
    some ({ code := .stackOverflow, epc := 0x200, eop := 0x2300, info := 0x300 }, 0x200, 16, 5) := by decide +kernel

/-- T-CF-5, T-CF-6. -/
theorem test_seByte : ran 0x332A 0 0 (regs [(3, 0x2A)] s0) State.pc = some 0x204 ∧ ran 0x332A 0 0 (regs [(3, 0x2B)] s0) State.pc = some 0x202 := by
  decide +kernel

/-- T-CF-7, T-CF-8. -/
theorem test_sneByte : ran 0x432A 0 0 (regs [(3, 0x2A)] s0) State.pc = some 0x202 ∧ ran 0x432A 0 0 s0 State.pc = some 0x204 := by decide +kernel

/-- T-CF-10, T-CF-11. -/
theorem test_seReg : ran 0x5120 0 0 (regs [(1, 0x10), (2, 0x11)] s0) State.pc = some 0x202 ∧
    ran 0x5440 0 0 (regs [(4, 0x99)] s0) State.pc = some 0x204 := by decide +kernel

/-- T-DEC-8b, T-CF-13. -/
theorem test_sneReg : ran 0x9127 0 0 (regs [(1, 1), (2, 2)] s0) State.pc = some 0x204 ∧
    ran 0x9440 0 0 (regs [(4, 0x99)] s0) State.pc = some 0x202 := by decide +kernel

/-- T-CF-15, its first cycle. -/
theorem test_jpV0 : ran 0xBFFF 0 0 (regs [(0, 0xFF)] s0) State.pc = some 0x10FE := by decide +kernel

/-- T-ALU-1. -/
theorem test_ldByte : ran 0x6A7F 0 0 s0 (fun t => (t.reg 0xA, t.pc)) = some (0x7F, 0x202) := by decide +kernel

/-- T-ALU-2. -/
theorem test_addByte_wraps : ran 0x7102 0 0 (regs [(1, 0xFF), (0xF, 0x55)] s0) (fun t => (t.reg 1, t.reg 0xF)) = some (0x01, 0x55) := by
  decide +kernel

/-- T-ALU-3. -/
theorem test_ldReg : ran 0x8120 0 0 (regs [(2, 0x5C)] s0) (fun t => (t.reg 1, t.reg 2)) = some (0x5C, 0x5C) := by decide +kernel

/-- T-ALU-4. -/
theorem test_orReg : ran 0x8121 0 0 (regs [(1, 0xF0), (2, 0x3C), (0xF, 0x55)] s0) (fun t => (t.reg 1, t.reg 0xF)) = some (0xFC, 0x55) := by
  decide +kernel

/-- T-ALU-5. -/
theorem test_andReg : ran 0x8122 0 0 (regs [(1, 0xF0), (2, 0x3C), (0xF, 0x55)] s0) (fun t => (t.reg 1, t.reg 0xF)) = some (0x30, 0x55) := by
  decide +kernel

/-- T-ALU-6. -/
theorem test_xorReg : ran 0x8123 0 0 (regs [(1, 0xF0), (2, 0x3C), (0xF, 0x55)] s0) (fun t => (t.reg 1, t.reg 0xF)) = some (0xCC, 0x55) := by
  decide +kernel

/-- T-ALU-7c: the sum is exactly 256. -/
theorem test_addReg_carry : ran 0x8124 0 0 (regs [(1, 0xFF), (2, 1)] s0) (fun t => (t.reg 1, t.reg 0xF)) = some (0, 1) := by decide +kernel

/-- T-ALU-8: the sum overwrites the carry. -/
theorem test_addReg_into_flag : ran 0x8F14 0 0 (regs [(1, 0x90), (0xF, 0x80)] s0) (fun t => t.reg 0xF) = some 0x10 := by decide +kernel

/-- T-ALU-9: equal operands leave the flag 0. -/
theorem test_subReg_equal : ran 0x8125 0 0 (regs [(1, 7), (2, 7), (0xF, 1)] s0) (fun t => (t.reg 1, t.reg 0xF)) = some (0, 0) := by decide +kernel

/-- T-ALU-12: the flag is written before the difference is formed. -/
theorem test_subReg_into_flag : ran 0x8F15 0 0 (regs [(1, 4), (0xF, 9)] s0) (fun t => t.reg 0xF) = some 0xFD := by decide +kernel

/-- T-ALU-18. -/
theorem test_shr : ran 0x8126 0 0 (regs [(1, 5), (2, 0xFF)] s0) (fun t => (t.reg 1, t.reg 0xF, t.reg 2)) = some (2, 1, 0xFF) := by decide +kernel

/-- T-ALU-15: the second register minus the first, into the first. -/
theorem test_subn : ran 0x8127 0 0 (regs [(1, 3), (2, 5)] s0) (fun t => (t.reg 1, t.reg 0xF, t.reg 2)) = some (2, 1, 5) := by decide +kernel

/-- T-ALU-17. -/
theorem test_subn_flag_operand : ran 0x81F7 0 0 (regs [(1, 4), (0xF, 9)] s0) (fun t => (t.reg 1, t.reg 0xF)) = some (0xFD, 1) := by decide +kernel

/-- R152: `0x81` shifts to `0x02` and bit 7 goes to the flag. -/
theorem test_shl : ran 0x812E 0 0 (regs [(1, 0x81), (2, 0xFF)] s0) (fun t => (t.reg 1, t.reg 0xF)) = some (0x02, 1) := by decide +kernel

/-- Program P7, cycle 1: the draw `0xB7` under the mask `0x0F`. -/
theorem test_rnd : ran 0xC10F 0 0xB7 s0 (fun t => (t.reg 1, t.draws)) = some (0x07, 1) := by decide +kernel

/-- T-IDX-1. -/
theorem test_ldI : ran 0xA2F0 0 0 { s0 with i := 0xFFFF } State.i = some 0x2F0 := by decide +kernel

/-- T-IDX-3, T-IDX-4. -/
theorem test_addI : ran 0xF21E 0 0 { regs [(2, 1)] s0 with i := 0x0FFF } State.i = some 0x1000 ∧
    ran 0xF21E 0 0 { regs [(2, 1)] s0 with i := 0xFFFF } State.i = some 0 := by decide +kernel

/-- T-IDX-5, T-IDX-6: the operand is not masked to a digit. -/
theorem test_ldF : ran 0xF029 0 0 (regs [(0, 3)] s0) State.i = some 0x5F ∧ ran 0xF029 0 0 (regs [(0, 0x10)] s0) State.i = some 0xA0 := by
  decide +kernel

/-- T-IDX-7. -/
theorem test_ldB : ran 0xF033 0 0 { regs [(0, 0xEA)] s0 with i := 0x300 } (fun t => Memory.readBytes t.mem 0x300 4) = some [2, 3, 4, 0] := by
  decide +kernel

/-- T-IDX-16. -/
theorem test_ldB_range : ran 0xF033 0 0 { regs [(0, 0x7B)] s0 with i := 0xFFE } (fun t => (t.err, Memory.read t.mem 0xFFE)) =
    some ({ code := .memRange, epc := 0x200, eop := 0xF033, info := 0x1000 }, 0) := by decide +kernel

/-- T-IDX-9. -/
theorem test_storeRegs : ran 0xF155 0 0 { regs [(0, 0x12), (1, 8), (2, 0x77)] s0 with i := 0x208 } (fun t => (Memory.readBytes t.mem 0x208 3, t.i)) =
    some ([0x12, 8, 0], 0x208) := by decide +kernel

/-- T-IDX-14: nothing is stored. -/
theorem test_storeRegs_range : ran 0xF155 0 0 { regs [(0, 0x5A), (1, 0x5B)] s0 with i := 0xFFF, dt := 4 }
    (fun t => (t.err.info, Memory.read t.mem 0xFFF, t.dt)) = some (0x1000, 0, 4) := by decide +kernel

/-- T-IDX-11. -/
theorem test_loadRegs : ran 0xF265 0 0 (poke 0x300 [2, 3, 4, 5] { regs [(3, 0x99)] s0 with i := 0x300 })
    (fun t => (t.reg 0, t.reg 1, t.reg 2, t.reg 3)) = some (2, 3, 4, 0x99) := by decide +kernel

/-- T-IDX-17: `info` is `I` when `I` itself is outside. -/
theorem test_loadRegs_range : ran 0xF065 0 0 { regs [(0, 7)] s0 with i := 0x1234 } (fun t => (t.err.info, t.reg 0)) = some (0x1234, 7) := by
  decide +kernel

/-- T-DSP-3: both edges wrap. -/
theorem test_drw_wraps : ran 0xD012 0 0 (poke 0x20C [0xC0, 0x80] { regs [(0, 0x3F), (1, 0x1F)] s0 with i := 0x20C })
    (fun t => (decide (t.fb = (lit [(31, 63), (31, 0), (0, 63)] s0).fb), t.reg 0xF)) = some (true, 0) := by decide +kernel

/-- T-DSP-8: a partial overlap. -/
theorem test_drw_collides : ran 0xD011 0 0 (lit [(4, 12)] (poke 0x300 [0xF0] { regs [(0, 0xA), (1, 4)] s0 with i := 0x300 }))
    (fun t => (decide (t.fb = (lit [(4, 10), (4, 11), (4, 13)] s0).fb), t.reg 0xF)) = some (true, 1) := by decide +kernel

/-- T-KEY-1, T-KEY-2. -/
theorem test_skp : ran 0xE29E 0x0020 0 (regs [(2, 5)] s0) State.pc = some 0x204 ∧ ran 0xE29E 0x0040 0 (regs [(2, 5)] s0) State.pc = some 0x202 := by
  decide +kernel

/-- T-KEY-5: a key number above 15. -/
theorem test_skp_range : ran 0xE29E 0xFFFF 0 { regs [(2, 0x10)] s0 with dt := 2 } (fun t => (t.err, t.pc, t.dt)) =
    some ({ code := .keyRange, epc := 0x200, eop := 0xE29E, info := 0x10 }, 0x200, 2) := by decide +kernel

/-- T-KEY-3, T-KEY-4. -/
theorem test_sknp : ran 0xE2A1 0 0 (regs [(2, 5)] s0) State.pc = some 0x204 ∧ ran 0xE2A1 0x0020 0 (regs [(2, 5)] s0) State.pc = some 0x202 := by
  decide +kernel

/-- T-TMR-1: the value before the tick. -/
theorem test_ldVxDt : ran 0xF207 0 0 { s0 with dt := 6 } (fun t => (t.reg 2, t.dt)) = some (6, 5) := by decide +kernel

/-- T-KEY-7: no key. -/
theorem test_ldVxK_waits : ran 0xF10A 0 0 { regs [(1, 0x77)] s0 with pc := 0x204, dt := 8 } (fun t => (t.pc, t.reg 1, t.dt)) =
    some (0x204, 0x77, 7) := by decide +kernel

/-- T-KEY-8: keys 3 and 7. -/
theorem test_ldVxK_takes : ran 0xF10A 0x0088 0 { regs [(1, 0x77)] s0 with pc := 0x204 } (fun t => (t.pc, t.reg 1)) = some (0x206, 3) := by
  decide +kernel

/-- T-TMR-2. -/
theorem test_ldDtVx : ran 0xF015 0 0 (regs [(0, 0xA)] s0) State.dt = some 9 := by decide +kernel

/-- T-TMR-5. -/
theorem test_ldStVx : ran 0xF318 0 0 (regs [(3, 2)] s0) State.st = some 1 := by decide +kernel

/-- T-FLT-3: the fetch at `0xFFF`. -/
theorem test_fetch_range : (match cycle 0 0 { s0 with pc := 0xFFF, dt := 1 } with | .next t => some (t.err, t.dt) | _ => none) =
    some ({ code := .fetchRange, epc := 0xFFF, eop := 0, info := 0xFFF }, 1) := by decide +kernel

/-- R36, R51: the font after reset, glyph 0, and zero on both sides of it. -/
theorem test_reset_font : Memory.readBytes State.reset.mem 0x50 5 = [0xF0, 0x90, 0x90, 0x90, 0xF0] ∧ Memory.read State.reset.mem 0x4F = 0 ∧
    Memory.read State.reset.mem 0xA0 = 0 ∧ Memory.read State.reset.mem 0x9F = 0x80 := by decide +kernel

/-! ## Witnesses: a state and operands that meet the hypotheses of each statement, clause by clause, at the edges of their ranges -/

/-- The core runs, and the word at `PC` is `i`'s. -/
theorem running_of {s : State} (h : s.halted = false) (hp : s.fetchOutOfRange = false) : s.Running :=
  ⟨by simpa [State.halted] using h, by simpa [State.fetchOutOfRange] using hp⟩

theorem test_witness_EncodeThenDecode : (Instr.nop 0xF1FF).wellFormed = true ∧ decodeWord (encode (.nop 0xF1FF)) = .nop 0xF1FF := by decide

/-- The three clauses: a row and a word of it; a word of no row; one word and a row twice. -/
theorem test_witness_DecoderFollowsTheOpcodeMap : ((0xF00F, 0x8005) ∈ definedRows ∧ (0x8125#16 &&& 0xF00F) = 0x8005) ∧
    (definedRows.all fun r => (0x8018#16 &&& r.1) != r.2) = true := by
  exact ⟨⟨by simp [definedRows], rfl⟩, rfl⟩

/-- A word for each of the six clauses, all aliases (T-DEC-4, 5, 8a, 8b, 7, 16). -/
theorem test_witness_AliasWords : (opT 0x00F0 = 0x0 ∧ opN 0x00F0 = 0x0) ∧ (opT 0x012E = 0x0 ∧ opN 0x012E = 0xE) ∧ opT 0x5121 = 0x5 ∧
    opT 0x9127 = 0x9 ∧ (opT 0xE1FE = 0xE ∧ opN 0xE1FE = 0xE) ∧ (opT 0xE2B1 = 0xE ∧ opN 0xE2B1 = 0x1) := by decide

/-- R79: words at the edges of the four ranges of no-ops. -/
theorem test_witness_NoOpWords : decodeWord 0x000D = .nop 0x000D ∧ decodeWord 0x8008 = .nop 0x8008 ∧ decodeWord 0x800F = .nop 0x800F ∧
    decodeWord 0xE00F = .nop 0xE00F ∧ decodeWord 0xF000 = .nop 0xF000 ∧ decodeWord 0x800E ≠ .nop 0x800E := by decide

/-- The highest `PC` that fetches, `0xFFE`. -/
theorem test_witness_StepRuns : (placed 0x6005 { s0 with pc := 0xFFE }).Running ∧
    decode [Memory.read (placed 0x6005 { s0 with pc := 0xFFE }).mem 0xFFE, Memory.read (placed 0x6005 { s0 with pc := 0xFFE }).mem 0xFFF] =
      .ok (.ldByte 0 5, []) := ⟨running_of rfl rfl, by decide +kernel⟩

/-- A step without a fault: the hypotheses of the statements on `OPCODE` and on the timers, and both invariants before it. -/
theorem test_witness_completed_step : stepped (placed 0xF015 { regs [(0, 1)] s0 with dt := 0xFF }) (fun t => (t.err.code, t.opcode, t.dt)) =
    some (.noFault, 0xF015, 0) := by decide +kernel

/-- A halted core (T-FLT-6). -/
theorem test_witness_Halted : ({ s0 with err := { code := .stackUnderflow, epc := 0x200, eop := 0x00EE, info := 0 } } : State).err.code ≠ .noFault := by
  decide

/-- The lowest `PC` that cannot fetch, `0xFFF`, and the highest of all. -/
theorem test_witness_FetchOutside : 0x0FFE < (0x0FFF#16).toNat ∧ 0x0FFE < (0xFFFF#16).toNat ∧ s0.err.code = .noFault := by decide

/-- Both cases of the table of faults. -/
theorem test_witness_Faults : (placed 0x2300 { s0 with sp := 16 }).Running ∧
    faultOf (placed 0x2300 { s0 with sp := 16 }).current { s0 with sp := 16 } = some (.stackOverflow, 0x300) ∧
    faultOf (placed 0x2300 { s0 with sp := 15 }).current { s0 with sp := 15 } = none := ⟨running_of rfl rfl, by decide +kernel, by decide +kernel⟩

/-- The invariants hold somewhere beside reset: `PC` at its bound, a full latch that tells the truth. -/
theorem test_witness_invariants : ({ s0 with pc := 0x10FE } : State).PcBounded ∧
    (placed 0x00EE { s0 with err := { code := .stackUnderflow, epc := 0x200, eop := 0x00EE, info := 0 } }).Inv := by
  refine ⟨⟨by decide, by decide⟩, by decide +kernel, ?_⟩
  exact ⟨by decide, fun _ => rfl, by decide, fun _ _ => by decide⟩

theorem test_witness_memory_writers : did (.ldB 0) { regs [(0, 0xEA)] s0 with i := 0x300 } (fun t => decide (t.mem ≠ s0.mem)) = some true ∧
    did (.storeRegs 0) { regs [(0, 0xEA)] s0 with i := 0x300 } (fun t => decide (t.mem ≠ s0.mem)) = some true := by decide +kernel

theorem test_witness_screen_writers : did (.cls 0) (lit [(0, 0)] s0) (fun t => decide (t.fb ≠ (lit [(0, 0)] s0).fb)) = some true ∧
    did (.drw 0 0 1) { s0 with i := 0x50 } (fun t => decide (t.fb ≠ s0.fb)) = some true := by decide +kernel

theorem test_witness_stack_writers : did (.call 0x300) s0 (fun t => decide (t.sp ≠ s0.sp) && decide (t.stack ≠ s0.stack)) = some true ∧
    did (.ret 0) { s0 with sp := 1 } (fun t => decide (t.sp ≠ 1)) = some true := by decide +kernel

/-- An instruction that is neither a call nor a return, on two states that differ in the stack alone. -/
theorem test_witness_stack_readers : (∀ nnn, Instr.jpV0 0x300 ≠ .call nnn) ∧ (∀ g, Instr.jpV0 0x300 ≠ .ret g) ∧
    ({ s0 with sp := 16 } : State) ≠ s0 := ⟨nofun, nofun, by decide +kernel⟩

theorem test_witness_index_timer_writers : did (.ldI 1) s0 (fun t => decide (t.i ≠ 0)) = some true ∧
    did (.addI 0) (regs [(0, 1)] s0) (fun t => decide (t.i ≠ 0)) = some true ∧ did (.ldF 0) s0 (fun t => decide (t.i ≠ 0)) = some true ∧
    did (.ldDtVx 0) (regs [(0, 1)] s0) (fun t => decide (t.dt ≠ 0)) = some true ∧
    did (.ldStVx 0) (regs [(0, 1)] s0) (fun t => decide (t.st ≠ 0)) = some true := by decide +kernel

/-- Every kind of writer of `PC`, without a fault. -/
theorem test_witness_pc_writers : did (.jp 0x300) s0 (fun t => decide (t.pc ≠ s0.pc)) = some true ∧
    did (.jpV0 0x300) s0 (fun t => decide (t.pc ≠ s0.pc)) = some true ∧ did (.call 0x300) s0 (fun t => decide (t.pc ≠ s0.pc)) = some true ∧
    did (.ret 0) { s0 with sp := 1 } (fun t => (decide (t.pc ≠ s0.pc), t.err.code)) = some (true, .noFault) ∧
    did (.seByte 0 0) s0 (fun t => decide (t.pc ≠ s0.pc)) = some true ∧ did (.sneReg 0 1 0) (regs [(1, 1)] s0) (fun t => decide (t.pc ≠ s0.pc)) = some true ∧
    did (.sknp 0 0) s0 (fun t => (decide (t.pc ≠ s0.pc), t.err.code)) = some (true, .noFault) ∧
    did (.ldVxK 0) s0 (fun t => decide (t.pc ≠ s0.pc)) = some true := by decide +kernel

/-- A writer of `VF` as a flag, and as a destination of each kind. -/
theorem test_witness_flag_writers : did (.subReg 0 1) (regs [(0, 1)] s0) (fun t => t.reg 0xF) = some 1 ∧ did (.ldByte 0xF 7) s0 (fun t => t.reg 0xF) = some 7 ∧
    did (.loadRegs 0xF) { s0 with i := 0x50 } (fun t => t.reg 0xF) = some 0xF0 := by decide +kernel

theorem test_witness_inputs : did (.rnd 0 0xFF) { s0 with rnd := 3 } (fun t => (t.draws, t.rnd)) = some (1, 3) ∧
    s0.Running ∧ s0.current = .cls 0 := ⟨by decide +kernel, running_of rfl rfl, by decide⟩

/-- The edges of the stack: 15 and 16 entries for a call, 1 and 0 for a return. -/
theorem test_witness_stack : did (.call 0x300) { s0 with sp := 15 } (fun t => t.sp) = some 16 ∧
    did (.call 0x300) { s0 with sp := 16 } (fun t => (t.sp, t.err.code)) = some (16, .stackOverflow) ∧
    did (.ret 0) { s0 with sp := 1 } (fun t => t.sp) = some 0 ∧
    did (.ret 0) s0 (fun t => (t.sp, t.err.code)) = some (0, .stackUnderflow) := by decide +kernel

/-- A call, a routine that does nothing, and its return. -/
theorem test_witness_ReturnAfterCall : (did (.call 0x300) { s0 with sp := 15 } id).bind (fun t => did (.ret 0) t (fun u => (u.pc, u.sp))) =
    some (0x200, 15) := by decide +kernel

theorem test_witness_StackFaults :
    ((placed 0x2300 { s0 with sp := 16 }).Running ∧ (placed 0x2300 { s0 with sp := 16 }).current = .call 0x300) ∧
    (placed 0x00EE s0).Running ∧ (placed 0x00EE s0).current = .ret 0x0E :=
  ⟨⟨running_of rfl rfl, by decide +kernel⟩, running_of rfl rfl, by decide +kernel⟩

/-- The decoding clauses of the statements on one instruction each: a word with the tag, and with the sub-opcode. -/
theorem test_witness_tags : opT 0x1ABC = 0x1 ∧ opT 0x2300 = 0x2 ∧ opT 0x332A = 0x3 ∧ opT 0x432A = 0x4 ∧ opT 0x5120 = 0x5 ∧ opT 0x6A7F = 0x6 ∧
    opT 0x7102 = 0x7 ∧ opT 0x9120 = 0x9 ∧ opT 0xA2F0 = 0xA ∧ opT 0xB300 = 0xB ∧ opT 0xC10F = 0xC ∧ opT 0xD012 = 0xD ∧
    (opT 0x8120 = 0x8 ∧ opN 0x8120 = 0x0) ∧ opN 0x8121 = 0x1 ∧ opN 0x8122 = 0x2 ∧ opN 0x8123 = 0x3 ∧ opN 0x8124 = 0x4 ∧ opN 0x8125 = 0x5 ∧
    opN 0x8126 = 0x6 ∧ opN 0x8127 = 0x7 ∧ opN 0x812E = 0xE := by decide

theorem test_witness_sub_opcodes : (opT 0xE29E = 0xE ∧ opN 0xE29E = 0xE) ∧ opN 0xE2A1 = 0x1 ∧ (opT 0xF207 = 0xF ∧ opKK 0xF207 = 0x07) ∧
    opKK 0xF10A = 0x0A ∧ opKK 0xF015 = 0x15 ∧ opKK 0xF318 = 0x18 ∧ opKK 0xF21E = 0x1E ∧ opKK 0xF029 = 0x29 ∧ opKK 0xF033 = 0x33 ∧
    opKK 0xF155 = 0x55 ∧ opKK 0xF265 = 0x65 ∧ (opT 0x00E0 = 0x0 ∧ opN 0x00E0 = 0x0) ∧ opN 0x00EE = 0xE := by decide

/-- The flag clauses: with `VF` as destination and without, and a register that is neither. -/
theorem test_witness_flag_clauses : (1 : RegNum) ≠ regF ∧ regF = (0xF : RegNum) ∧ (2 : RegNum) ≠ 1 ∧ (2 : RegNum) ≠ regF := by decide

/-- The last block in range, for a store of three, of one and of sixteen bytes. -/
theorem test_witness_blocks_in_range : Memory.wf s0.mem = true ∧ (0xFFD#16).toNat + 2 ≤ 0x0FFF ∧ (0xFFF#16).toNat + (0 : RegNum).toNat ≤ 0x0FFF ∧
    (0xFF0#16).toNat + (0xF : RegNum).toNat ≤ 0x0FFF := by decide

/-- A store at the end of memory, and a load of the same block into other registers. -/
theorem test_witness_LoadAfterStore : (did (.storeRegs 1) { regs [(0, 0x5A), (1, 0x5B)] s0 with i := 0xFFE } id).bind
    (fun t => did (.loadRegs 1) (regs [(0, 0), (1, 0)] t) (fun u => (u.reg 0, u.reg 1))) = some (0x5A, 0x5B) := by decide +kernel

/-- The first block out of range for each of the four instructions, and one with `I` itself outside. -/
theorem test_witness_MemoryRangeFaults : ((placed 0xD012 { s0 with i := 0xFFF }).current = .drw 0 1 2 ∧ 0x0FFF < (0xFFF#16).toNat + 2 - 1) ∧
    ((placed 0xF033 { s0 with i := 0xFFE }).current = .ldB 0 ∧ 0x0FFF < (0xFFE#16).toNat + 3 - 1) ∧
    ((placed 0xF155 { s0 with i := 0xFFF }).current = .storeRegs 1 ∧ 0x0FFF < (0xFFF#16).toNat + 2 - 1) ∧
    ((placed 0xF065 { s0 with i := 0x1000 }).current = .loadRegs 0 ∧ 0x0FFF < (0x1000#16).toNat + 1 - 1) ∧
    (placed 0xF065 { s0 with i := 0x1000 }).Running := by
  refine ⟨?_, ?_, ?_, ?_, running_of rfl rfl⟩ <;> decide +kernel

/-- Program P6, its fourth cycle: `F155` at `0x206` stores at `0x208`. -/
theorem test_witness_StoreIsSeen : ((placed 0xF155 { regs [(0, 0x12), (1, 8)] s0 with pc := 0x206, i := 0x208 }).Running ∧
    (placed 0xF155 { regs [(0, 0x12), (1, 8)] s0 with pc := 0x206, i := 0x208 }).current = .storeRegs 1) ∧
    stepped (placed 0xF155 { regs [(0, 0x12), (1, 8)] s0 with pc := 0x206, i := 0x208 }) (fun t => (t.pc, t.fetchWord)) = some (0x208, 0x1208) :=
  ⟨⟨running_of rfl rfl, by decide +kernel⟩, by decide +kernel⟩

/-- Draws at the edges: one row at the last byte (T-DSP-10), no row with `I` outside memory (T-DSP-11). -/
theorem test_witness_draws : (did (.drw 0 1 1) (poke 0xFFF [0x81] { s0 with i := 0xFFF }) (fun t => (Screen.pixel t.fb 0 7, Screen.pixel t.fb 0 1, t.reg 0xF)) =
      some (true, false, 0)) ∧
    did (.drw 0 1 0) { regs [(0xF, 1)] s0 with i := 0x1000 } (fun t => (t.reg 0xF, t.err.code)) = some (0, .noFault) := by decide +kernel

/-- T-DSP-3 and then T-DSP-4: the second of two equal draws. -/
theorem test_witness_DrawTwice : (did (.drw 0 1 2) (poke 0x20C [0xC0, 0x80] { regs [(0, 0x3F), (1, 0x1F)] s0 with i := 0x20C }) id).bind
    (fun t => did (.drw 0 1 2) t (fun u => (decide (u.fb = s0.fb), u.reg 0xF))) = some (true, 1) := by decide +kernel

/-- Key numbers 15 and 16. -/
theorem test_witness_KeySkips : did (.skp 0 9) { regs [(0, 15)] s0 with keys := 0x8000 } State.pc = some 0x202 ∧
    did (.sknp 0 0xA) (regs [(0, 15)] s0) State.pc = some 0x202 ∧
    did (.sknp 0 0xA) { regs [(0, 16)] s0 with keys := 0x8000 } (fun t => t.err.code) = some .keyRange := by decide +kernel

/-- The least of keys 3 and 7, key 15 alone, and none. -/
theorem test_witness_KeyWait : did (.ldVxK 1) { s0 with keys := 0x0088 } (fun t => t.reg 1) = some 3 ∧
    did (.ldVxK 1) { s0 with keys := 0x8000 } (fun t => t.reg 1) = some 15 ∧ did (.ldVxK 1) s0 State.pc = some 0x1FE := by decide +kernel

/-- A key wait at `PC` (T-KEY-7) and a no-op at `PC` (T-DEC-1). -/
theorem test_witness_whole_cycles : ((placed 0xF10A s0).Running ∧ (placed 0xF10A s0).current = .ldVxK 1) ∧
    (placed 0x8018 s0).Running ∧ (placed 0x8018 s0).current = .nop 0x8018 :=
  ⟨⟨running_of rfl rfl, by decide +kernel⟩, running_of rfl rfl, by decide +kernel⟩

/-- The default font has its 80 bytes. -/
theorem test_witness_DefaultFont : ∃ font : Vector Byte 80, font.toList = defaultFont := ⟨⟨defaultFont.toArray, rfl⟩, rfl⟩

/-- The longest image that loads, and the shortest that does not. -/
theorem test_witness_Load : (List.replicate 3584 (0 : Byte)).length ≤ 3584 ∧ 3584 < (List.replicate 3585 (0 : Byte)).length ∧
    ((State.load [0x60, 0x05] s0).map fun t => (Memory.read t.mem 0x200, Memory.read t.mem 0x201)) = some (0x60, 0x05) := by
  refine ⟨?_, ?_, by decide +kernel⟩ <;> rw [List.length_replicate]
  decide

/-- A jump to itself at `0x200`. -/
theorem test_witness_SelfJump : (placed 0x1200 s0).AtRest := ⟨running_of rfl rfl, 0x200, by decide +kernel, rfl⟩

end Sys2Proof.Tests
end

section
/-! SUPPORT. Out-of-range addresses (spec/20_memory.md section 5, R56 and R57): the whole step that takes `FetchRange` or `MemRange`. -/

namespace Sys2Proof.Machine

/-! ## A fault of a handler as a whole step -/

/-- Nothing before the handler writes `I`, so the value a `MemRange` fault reports is that of the state when the cycle begins. -/
@[simp] theorem State.beginCycle_memRangeInfo (s : State) (k : BitVec 16) (r : Byte) :
    (s.beginCycle k r).memRangeInfo = s.memRangeInfo := rfl

/-- What the latch holds after a handler's fault: the advance of `PC` is undone, and the word is the one fetched. -/
theorem State.beginCycle_raise_err (s : State) (k : BitVec 16) (r : Byte) (c : ErrCode) (info : Word) :
    ((s.beginCycle k r).raise c info).err = { code := c, epc := s.pc, eop := s.fetchWord, info := info } := by
  simp

/-- A handler's fault is precise (R106, R226): when the instruction at `PC` raises one, whatever the inputs, the step changes `ERR` alone. -/
theorem step_of_exec_raise {s : State} {c : ErrCode} {info : Word} (hrun : s.Running) (hc : c ≠ .noFault)
    (hraise : ∀ k r, exec s.current (s.beginCycle k r) = .next ((s.beginCycle k r).raise c info)) :
    step s = .next { s with err := { code := c, epc := s.pc, eop := s.fetchWord, info := info } } := by
  obtain ⟨hok, hpc⟩ := hrun
  rw [step_eq, cycle_run _ _ s _ hok hpc (hraise _ _), State.finishCycle_fault _ _ (by simpa using hc),
    State.beginCycle_raise_err]

/-! ## The obligations -/

/-- Settles O46: each of the four instructions is its effect behind the range test of one block (`State.withBlock`), so a block that
passes `0x0FFF` makes its handler raise `MemRange`, and a handler's fault is precise. -/
theorem memoryRangeFaultsStopTheCore : Obligations.MemoryRangeFaultsStopTheCore := by
  intro s len hrun hlen hpos hrange
  have hblock : ∀ u : State, ∃ t, exec s.current u = .next (u.withBlock len t) := by
    intro u
    split at hlen
    next x y n hi => subst hlen; rw [hi]; exact ⟨_, rfl⟩
    next x hi => subst hlen; rw [hi]; exact ⟨_, rfl⟩
    next x hi => subst hlen; rw [hi]; exact ⟨_, rfl⟩
    next x hi => subst hlen; rw [hi]; exact ⟨_, rfl⟩
    next => exact hlen.elim
  refine step_of_exec_raise (info := s.memRangeInfo) hrun (by decide) fun k r => ?_
  obtain ⟨t, ht⟩ := hblock (s.beginCycle k r)
  have hout : memSize < (s.beginCycle k r).i.toNat + len := by
    simp only [memSize, State.beginCycle_i]
    omega
  rw [ht, State.withBlock_fault _ _ _ hpos hout, State.beginCycle_memRangeInfo]

/-- Settles O10: the fetch's own test comes before the handler, whatever the inputs of the cycle. -/
theorem fetchOutsideMemoryFaults : Obligations.FetchOutsideMemoryFaults := by
  intro s hok hpc
  rw [step_eq, cycle_fetchRange _ _ s hok hpc, State.raiseFetch]

end Sys2Proof.Machine
end

section
/-! SUPPORT. What the decoder answers (spec/30_encoding.md R73 to R79): the word an instruction is decoded from is its encoding, the no-op words
are those R79 lists, and the decoded instruction is of the row the word matches. -/

namespace Sys2Proof

/-! ## The keys of the dispatch under a mask -/

/-- A mask acts on `T` by its own `T`. -/
@[simp] theorem opT_and (w m : Word) : opT (w &&& m) = opT w &&& opT m := BitVec.extractLsb'_and

/-- A mask acts on `N` by its own `N`. -/
@[simp] theorem opN_and (w m : Word) : opN (w &&& m) = opN w &&& opN m := BitVec.extractLsb'_and

/-- A mask acts on `KK` by its own `KK`. -/
@[simp] theorem opKK_and (w m : Word) : opKK (w &&& m) = opKK w &&& opKK m := BitVec.extractLsb'_and

/-! ## The no-ops of each family -/

theorem decode0_eq_nop_iff (w : Word) : decode0 w = .nop w ↔ opN w ≠ 0x0 ∧ opN w ≠ 0xE := by
  unfold decode0
  split <;> simp_all

theorem decode8_eq_nop_iff (w : Word) : decode8 w = .nop w ↔ 0x8 ≤ (opN w).toNat ∧ opN w ≠ 0xE := by
  unfold decode8
  split <;> simp_all
  · -- the fallback arm: what is none of the nine keys is 8 or more
    bv_omega

theorem decodeE_eq_nop_iff (w : Word) : decodeE w = .nop w ↔ opN w ≠ 0x1 ∧ opN w ≠ 0xE := by
  unfold decodeE
  split <;> simp_all

/-- The nine sub-opcodes of family F (R77). -/
theorem decodeF_eq_nop_iff (w : Word) : decodeF w = .nop w ↔
    ∀ kk ∈ [0x07#8, 0x0A#8, 0x15#8, 0x18#8, 0x1E#8, 0x29#8, 0x33#8, 0x55#8, 0x65#8], opKK w ≠ kk := by
  unfold decodeF
  split <;> simp_all

/-! ## The encoding of what is decoded -/

theorem encode_decode0 {w : Word} (hT : opT w = 0x0) : encode (decode0 w) = w := by
  have hw := encodeZ_fields w hT
  unfold decode0
  split <;> simp_all [encode]

theorem encode_decode8 {w : Word} (hT : opT w = 0x8) : encode (decode8 w) = w := by
  have hw := encodeXY_fields w
  unfold decode8
  split <;> simp_all [encode]

theorem encode_decodeE {w : Word} (hT : opT w = 0xE) : encode (decodeE w) = w := by
  have hw := encodeXY_fields w
  unfold decodeE
  split <;> simp_all [encode]

theorem encode_decodeF {w : Word} (hT : opT w = 0xF) : encode (decodeF w) = w := by
  have hw := encodeXK_fields w
  unfold decodeF
  split <;> simp_all [encode]

/-- What the primary table (R73) does with a word: a secondary table decides, or the word is its direct instruction's encoding. -/
theorem decodeWord_cases (w : Word) :
    (opT w = 0x0 ∧ decodeWord w = decode0 w) ∨ (opT w = 0x8 ∧ decodeWord w = decode8 w) ∨
    (opT w = 0xE ∧ decodeWord w = decodeE w) ∨ (opT w = 0xF ∧ decodeWord w = decodeF w) ∨
    ((opT w ≠ 0x0 ∧ opT w ≠ 0x8 ∧ opT w ≠ 0xE ∧ opT w ≠ 0xF) ∧ (∀ v, decodeWord w ≠ .nop v) ∧ encode (decodeWord w) = w) := by
  have hXY := encodeXY_fields w
  have hXK := encodeXK_fields w
  have hA := encodeA_fields w
  unfold decodeWord
  split <;> simp_all [encode]
  · -- the last arm: a tag that is none of 0 to E is F
    bv_omega

theorem encode_decodeWord (w : Word) : encode (decodeWord w) = w := by
  obtain ⟨hT, hd⟩ | ⟨hT, hd⟩ | ⟨hT, hd⟩ | ⟨hT, hd⟩ | ⟨-, -, he⟩ := decodeWord_cases w
  · rw [hd, encode_decode0 hT]
  · rw [hd, encode_decode8 hT]
  · rw [hd, encode_decodeE hT]
  · rw [hd, encode_decodeF hT]
  · exact he

/-! ## The no-op words -/

/-- Settles O4: a secondary table decides the no-ops of its family, and the primary table's direct instructions are none. -/
theorem noOpWordsAreTheListedOnes : Obligations.NoOpWordsAreTheListedOnes := by
  intro w
  obtain ⟨hT, hd⟩ | ⟨hT, hd⟩ | ⟨hT, hd⟩ | ⟨hT, hd⟩ | ⟨hT, hne, -⟩ := decodeWord_cases w
  · simp [hd, hT, decode0_eq_nop_iff]
  · simp [hd, hT, decode8_eq_nop_iff]
  · simp [hd, hT, decodeE_eq_nop_iff]
  · simp [hd, hT, decodeF_eq_nop_iff]
  · exact iff_of_false (hne w) (by tauto)

/-! ## The rows a word matches -/

/-- Every row's mask keeps the whole tag. -/
theorem opT_mask_of_mem_definedRows : ∀ r ∈ definedRows, opT r.1 = BitVec.allOnes 4 := by
  simp [definedRows, opT]

/-- The rows of family 0 are keyed by `N`. -/
theorem definedRows_family0 : ∀ r ∈ definedRows, opT r.2 = 0x0 →
    opN r.1 = BitVec.allOnes 4 ∧ (opN r.2 = 0x0 ∨ opN r.2 = 0xE) := by
  simp [definedRows, opT, opN]

/-- The rows of family 8 are keyed by `N`. -/
theorem definedRows_family8 : ∀ r ∈ definedRows, opT r.2 = 0x8 →
    opN r.1 = BitVec.allOnes 4 ∧ ((opN r.2).toNat < 0x8 ∨ opN r.2 = 0xE) := by
  simp [definedRows, opT, opN]

/-- The rows of family E are keyed by `N`. -/
theorem definedRows_familyE : ∀ r ∈ definedRows, opT r.2 = 0xE →
    opN r.1 = BitVec.allOnes 4 ∧ (opN r.2 = 0x1 ∨ opN r.2 = 0xE) := by
  simp [definedRows, opT, opN]

/-- The rows of family F are keyed by `KK`. -/
theorem definedRows_familyF : ∀ r ∈ definedRows, opT r.2 = 0xF → opKK r.1 = BitVec.allOnes 8 ∧
    opKK r.2 ∈ [0x07#8, 0x0A#8, 0x15#8, 0x18#8, 0x1E#8, 0x29#8, 0x33#8, 0x55#8, 0x65#8] := by
  simp [definedRows, opT, opKK]

section
variable {w : Word} {r : Word × Word}

theorem opT_eq_of_match (h : w &&& r.1 = r.2) (hm : opT r.1 = BitVec.allOnes 4) : opT r.2 = opT w := by
  rw [← h, opT_and, hm, BitVec.and_allOnes]

theorem opN_eq_of_match (h : w &&& r.1 = r.2) (hm : opN r.1 = BitVec.allOnes 4) : opN r.2 = opN w := by
  rw [← h, opN_and, hm, BitVec.and_allOnes]

theorem opKK_eq_of_match (h : w &&& r.1 = r.2) (hm : opKK r.1 = BitVec.allOnes 8) : opKK r.2 = opKK w := by
  rw [← h, opKK_and, hm, BitVec.and_allOnes]

/-- No word of R79's list matches a row: the row would be of the word's family, and keyed by what the list excludes. -/
theorem decodeWord_ne_nop_of_match (hr : r ∈ definedRows) (h : w &&& r.1 = r.2) : decodeWord w ≠ .nop w := by
  have hT := opT_eq_of_match h (opT_mask_of_mem_definedRows r hr)
  intro hnop
  obtain ⟨h0, hne0, hneE⟩ | ⟨h8, hge, hneE⟩ | ⟨hE, hne1, hneE⟩ | ⟨hF, hne⟩ := (noOpWordsAreTheListedOnes w).1 hnop
  · obtain ⟨hm, hk⟩ := definedRows_family0 r hr (hT.trans h0)
    rw [opN_eq_of_match h hm] at hk
    exact hk.elim hne0 hneE
  · obtain ⟨hm, hk⟩ := definedRows_family8 r hr (hT.trans h8)
    rw [opN_eq_of_match h hm] at hk
    exact hk.elim (Nat.not_lt.2 hge) hneE
  · obtain ⟨hm, hk⟩ := definedRows_familyE r hr (hT.trans hE)
    rw [opN_eq_of_match h hm] at hk
    exact hk.elim hne1 hneE
  · obtain ⟨hm, hk⟩ := definedRows_familyF r hr (hT.trans hF)
    rw [opKK_eq_of_match h hm] at hk
    exact hne _ hk rfl

end

/-- A decoded no-op carries the word it is decoded from. -/
theorem eq_of_decodeWord_eq_nop {w v : Word} (h : decodeWord w = .nop v) : v = w := by
  rw [← encode_decodeWord w, h, encode]

theorem wellFormed_decodeWord (w : Word) : (decodeWord w).wellFormed = true := by
  cases hd : decodeWord w with
  | nop v =>
    obtain rfl := eq_of_decodeWord_eq_nop hd
    exact List.all_eq_true.2 fun r hr => bne_iff_ne.2 fun h => decodeWord_ne_nop_of_match hr h hd
  | _ => rfl

/-- Every instruction but the no-op has a row of the opcode map. -/
theorem row_mem_definedRows {i : Instr} (h : ∀ v, i ≠ .nop v) : i.row ∈ definedRows := by
  cases i <;> simp_all [Instr.row, definedRows]

/-- The encoding of a well-formed instruction lies in its own row and in no other. -/
theorem encode_matches_own_row_only : ∀ i : Instr, Laws.RowMatch.Statement i
  | .cls _ => Laws.RowMatch.cls _
  | .ret _ => Laws.RowMatch.ret _
  | .jp _ => Laws.RowMatch.jp _
  | .call _ => Laws.RowMatch.call _
  | .seByte _ _ => Laws.RowMatch.seByte _ _
  | .sneByte _ _ => Laws.RowMatch.sneByte _ _
  | .seReg _ _ _ => Laws.RowMatch.seReg _ _ _
  | .ldByte _ _ => Laws.RowMatch.ldByte _ _
  | .addByte _ _ => Laws.RowMatch.addByte _ _
  | .ldReg _ _ => Laws.RowMatch.ldReg _ _
  | .orReg _ _ => Laws.RowMatch.orReg _ _
  | .andReg _ _ => Laws.RowMatch.andReg _ _
  | .xorReg _ _ => Laws.RowMatch.xorReg _ _
  | .addReg _ _ => Laws.RowMatch.addReg _ _
  | .subReg _ _ => Laws.RowMatch.subReg _ _
  | .shr _ _ => Laws.RowMatch.shr _ _
  | .subn _ _ => Laws.RowMatch.subn _ _
  | .shl _ _ => Laws.RowMatch.shl _ _
  | .sneReg _ _ _ => Laws.RowMatch.sneReg _ _ _
  | .ldI _ => Laws.RowMatch.ldI _
  | .jpV0 _ => Laws.RowMatch.jpV0 _
  | .rnd _ _ => Laws.RowMatch.rnd _ _
  | .drw _ _ _ => Laws.RowMatch.drw _ _ _
  | .skp _ _ => Laws.RowMatch.skp _ _
  | .sknp _ _ => Laws.RowMatch.sknp _ _
  | .ldVxDt _ => Laws.RowMatch.ldVxDt _
  | .ldVxK _ => Laws.RowMatch.ldVxK _
  | .ldDtVx _ => Laws.RowMatch.ldDtVx _
  | .ldStVx _ => Laws.RowMatch.ldStVx _
  | .addI _ => Laws.RowMatch.addI _
  | .ldF _ => Laws.RowMatch.ldF _
  | .ldB _ => Laws.RowMatch.ldB _
  | .storeRegs _ => Laws.RowMatch.storeRegs _
  | .loadRegs _ => Laws.RowMatch.loadRegs _
  | .nop _ => Laws.RowMatch.nop _

/-! ## The decoder and the opcode map -/

/-- Settles O3: a decoded instruction is well formed and its encoding is the word, so the row it belongs to is the only one the word
matches. -/
theorem decoderFollowsTheOpcodeMap : Obligations.DecoderFollowsTheOpcodeMap := by
  have hrow := fun w => encode_matches_own_row_only (decodeWord w) (wellFormed_decodeWord w)
  simp only [encode_decodeWord] at hrow
  refine ⟨fun w r hr h => ((hrow w).2 r hr h).symm, fun w hno => ?_, fun r hr r' hr' w => definedRows_disjoint hr hr'⟩
  by_contra hne
  have hv : ∀ v, decodeWord w ≠ .nop v := fun v hv => hne (eq_of_decodeWord_eq_nop hv ▸ hv)
  exact hno _ (row_mem_definedRows hv) (hrow w).1

end Sys2Proof
end

section
/-! SUPPORT. The cycle around the handler (spec/40_cycle_and_dispatch.md R100 to R106): the decoded instruction, the end of the cycle, the no-op. -/

namespace Sys2Proof.Machine

/-! ## The pieces of a cycle -/

/-- The decoder on the two bytes at `PC` (R103): they are the whole instruction. -/
theorem State.decode_at_pc (s : State) :
    decode [Memory.read s.mem s.pc.toNat, Memory.read s.mem (s.pc.toNat + 1)] = .ok (s.current, []) := rfl

/-- The end of a cycle: the tick (R105), or, when a fault is latched, the state the cycle began in with `ERR` alone changed (R106). -/
theorem State.finishCycle_eq (s t : State) :
    s.finishCycle t = if t.err.code = .noFault then t.tick else { s with err := t.err } := by
  split
  case isTrue h => exact s.finishCycle_ok t h
  case isFalse h => exact s.finishCycle_fault t h

/-- The `PC` advance of a cycle that fetches does not wrap (R102). -/
theorem State.Running.toNat_pc_add_two {s : State} (h : s.Running) : (s.pc + 2).toNat = s.pc.toNat + 2 := by
  obtain ⟨-, hpc⟩ := h
  bv_omega

/-- The no-op's handler (R104). -/
theorem exec_nop (w : Word) (s : State) : exec (.nop w) s = .next s := rfl

/-- A no-op's cycle is its beginning and the tick, whatever the inputs. -/
theorem cycle_of_current_eq_nop {w : Word} {s : State} (k : BitVec 16) (r : Byte) (hrun : s.Running) (hw : s.current = .nop w) :
    cycle k r s = .next (s.beginCycle k r).tick := by
  obtain ⟨hok, hpc⟩ := hrun
  have hexec : exec s.current (s.beginCycle k r) = .next (s.beginCycle k r) := by rw [hw, exec_nop]
  rw [cycle_run k r s _ hok hpc hexec, State.finishCycle_ok s (s.beginCycle k r) hok]

/-! ## The obligations -/

/-- Settles O55: the no-op's handler keeps the state, so the cycle leaves only its beginning and the tick, and the word a no-op is decoded
from is the one it carries. -/
theorem noOpOnlyAdvancesThePc : Obligations.NoOpOnlyAdvancesThePc := by
  refine ⟨exec_nop, fun w s k r hrun hw => ⟨_, cycle_of_current_eq_nop k r hrun hw, ?_, ?_, ?_, ?_, rfl⟩⟩
  · exact (eq_of_decodeWord_eq_nop hw).symm
  · exact hrun.toNat_pc_add_two
  · exact toNat_tickByte s.dt
  · exact toNat_tickByte s.st

/-- Settles O7: the instruction decoded is the one at `PC`, and its handler always answers a next state, which the end of the cycle
finishes. -/
theorem stepRunsTheDecodedInstruction : Obligations.StepRunsTheDecodedInstruction := by
  intro s i rest ⟨hok, hpc⟩ hdec
  obtain ⟨rfl, -⟩ : s.current = i ∧ [] = rest := by simpa [State.decode_at_pc] using hdec
  obtain ⟨t, ht⟩ := exec_next s.current (s.beginCycle (Config.keySnapshot s.samples) (Config.randomByte s.draws))
  rw [step_eq, cycle_run _ _ s t hok hpc ht, State.finishCycle_eq]
  rw [State.beginCycle] at ht
  rw [ht]
  rfl

end Sys2Proof.Machine
end

section
/-! SUPPORT. Control transfer (spec/41_control_flow.md): the jump, the call and the return, and the skips on a register. -/

namespace Sys2Proof

/-! ## The words of each instruction (R73, R74) -/

section
variable {w : Word}

theorem decodeWord_eq_jp (h : opT w = 0x1) : decodeWord w = .jp (opNNN w) := by simp [decodeWord, h]

theorem decodeWord_eq_call (h : opT w = 0x2) : decodeWord w = .call (opNNN w) := by simp [decodeWord, h]

theorem decodeWord_eq_seByte (h : opT w = 0x3) : decodeWord w = .seByte (opX w) (opKK w) := by simp [decodeWord, h]

theorem decodeWord_eq_sneByte (h : opT w = 0x4) : decodeWord w = .sneByte (opX w) (opKK w) := by simp [decodeWord, h]

theorem decodeWord_eq_seReg (h : opT w = 0x5) : decodeWord w = .seReg (opX w) (opY w) (opN w) := by simp [decodeWord, h]

theorem decodeWord_eq_sneReg (h : opT w = 0x9) : decodeWord w = .sneReg (opX w) (opY w) (opN w) := by simp [decodeWord, h]

theorem decodeWord_eq_ret (hT : opT w = 0x0) (hN : opN w = 0xE) : decodeWord w = .ret (opMid w) := by
  simp [decodeWord, decode0, hT, hN]

end

namespace Machine

/-! ## The handlers -/

/-- The jump (R121). -/
theorem exec_jp (nnn : Addr) (s : State) : exec (.jp nnn) s = .next { s with pc := addrWord nnn } := rfl

/-- A call with room (R122). -/
theorem exec_call_of_lt (nnn : Addr) {s : State} (h : s.sp.val < 16) : exec (.call nnn) s =
    .next { s with pc := addrWord nnn, stack := s.stack.set s.sp.val s.pc h, sp := ⟨s.sp.val + 1, by omega⟩ } := by
  rw [exec, execCall, State.push_of_lt s s.pc h]

/-- A call with a full stack (R221). -/
theorem exec_call_full (nnn : Addr) {s : State} (h : s.sp.val = 16) :
    exec (.call nnn) s = .next (s.raise .stackOverflow (addrWord nnn)) := by
  rw [exec, execCall, State.push_full s s.pc h]

/-- A return with an entry to pop (R120). -/
theorem exec_ret_of_pos (g : Byte) {s : State} (h : 0 < s.sp.val) : exec (.ret g) s =
    .next { s with pc := s.stack[s.sp.val - 1]'(by omega), sp := ⟨s.sp.val - 1, by omega⟩ } := by
  rw [exec, execRet, State.pop_of_pos s h]

/-- A return with an empty stack (R222). -/
theorem exec_ret_empty (g : Byte) {s : State} (h : s.sp.val = 0) :
    exec (.ret g) s = .next (s.raise .stackUnderflow 0) := by
  rw [exec, execRet, State.pop_empty s h]

/-- The skip on a register equal to a byte (R123). -/
theorem exec_seByte (x : RegNum) (kk : Byte) (s : State) :
    exec (.seByte x kk) s = .next (s.skipIf (s.reg x == kk)) := rfl

/-- The skip on a register different from a byte (R124). -/
theorem exec_sneByte (x : RegNum) (kk : Byte) (s : State) :
    exec (.sneByte x kk) s = .next (s.skipIf (s.reg x != kk)) := rfl

/-- The skip on two equal registers (R125). -/
theorem exec_seReg (x y : RegNum) (g : Nibble) (s : State) :
    exec (.seReg x y g) s = .next (s.skipIf (s.reg x == s.reg y)) := rfl

/-- The skip on two different registers (R126). -/
theorem exec_sneReg (x y : RegNum) (g : Nibble) (s : State) :
    exec (.sneReg x y g) s = .next (s.skipIf (s.reg x != s.reg y)) := rfl

/-! ## Where a skip goes (R127) -/

/-- A skip on equal bytes. -/
theorem State.skipIf_beq_pc (s : State) (a b : Byte) : (s.skipIf (a == b)).pc = if a = b then s.pc + 2 else s.pc := by
  simp

/-- A skip on different bytes. -/
theorem State.skipIf_bne_pc (s : State) (a b : Byte) : (s.skipIf (a != b)).pc = if a = b then s.pc else s.pc + 2 := by
  simp

/-- A skip changes nothing but `PC`. -/
theorem State.skipIf_frame (s : State) (c : Bool) : s.skipIf c = { s with pc := (s.skipIf c).pc } := rfl

/-! ## The obligations -/

/-- Settles O27: the stack holds the advanced `PC` at the old `SP` and its old entries elsewhere, or, when it is full, the push fails. -/
theorem callPushesTheReturnAddress : Obligations.CallPushesTheReturnAddress := by
  refine ⟨fun w => decodeWord_eq_call, fun nnn s hroom => ⟨_, exec_call_of_lt nnn hroom, ?_, rfl, ?_, ?_, rfl⟩,
    fun nnn s hfull => exec_call_full nnn hfull⟩
  · exact toNat_addrWord nnn
  · exact Vector.getElem?_set_self hroom
  · intro k hk
    exact Vector.getElem_set_ne hroom k.isLt hk.symm

/-- Settles O31: two bytes are equal exactly when they are the same number. -/
theorem byteSkipsCompareTheWholeRegister : Obligations.ByteSkipsCompareTheWholeRegister := by
  refine ⟨fun w => decodeWord_eq_seByte, fun w => decodeWord_eq_sneByte, fun x kk s =>
    ⟨⟨_, exec_seByte x kk s, ?_, s.skipIf_frame _⟩, ⟨_, exec_sneByte x kk s, ?_, s.skipIf_frame _⟩⟩⟩
  · simp only [BitVec.toNat_inj, State.skipIf_beq_pc]
  · simp only [BitVec.toNat_inj, State.skipIf_bne_pc]

/-- Settles O32: the skips' handlers do not see the ignored nibble. -/
theorem registerSkipsCompareTwoRegisters : Obligations.RegisterSkipsCompareTwoRegisters :=
  ⟨fun _ => decodeWord_eq_seReg, fun _ => decodeWord_eq_sneReg, fun x y g s =>
    ⟨⟨_, exec_seReg x y g s, s.skipIf_beq_pc _ _, s.skipIf_frame _⟩,
      ⟨_, exec_sneReg x y g s, s.skipIf_bne_pc _ _, s.skipIf_frame _⟩⟩⟩

/-- Settles O25: the target is the operand, zero-extended. -/
theorem jumpGoesToItsAddress : Obligations.JumpGoesToItsAddress :=
  ⟨fun _ => decodeWord_eq_jp, fun nnn s => ⟨_, exec_jp nnn s, toNat_addrWord nnn, rfl⟩⟩

/-- Settles O28: the entry popped is the one at the new `SP`, and the stack itself is not written; when it is empty, the pop fails. -/
theorem returnPopsIntoThePc : Obligations.ReturnPopsIntoThePc := by
  refine ⟨fun w => decodeWord_eq_ret, fun g s hpos => ⟨_, exec_ret_of_pos g hpos, ?_, ?_, rfl⟩,
    fun g s hempty => exec_ret_empty g hempty⟩
  · exact Nat.sub_add_cancel hpos
  · have hnew : s.sp.val - 1 < 16 := by omega
    exact Vector.getElem?_eq_getElem hnew

end Machine
end Sys2Proof
end

section
/-! SUPPORT. Register loads and arithmetic with a byte operand (spec/42_alu.md R142, R143, R153): each writes one register and no flag. -/

namespace Sys2Proof

/-! ## The words of each instruction (R73) -/

section
variable {w : Word}

theorem decodeWord_eq_ldByte (h : opT w = 0x6) : decodeWord w = .ldByte (opX w) (opKK w) := by simp [decodeWord, h]

theorem decodeWord_eq_addByte (h : opT w = 0x7) : decodeWord w = .addByte (opX w) (opKK w) := by simp [decodeWord, h]

theorem decodeWord_eq_rnd (h : opT w = 0xC) : decodeWord w = .rnd (opX w) (opKK w) := by simp [decodeWord, h]

end

namespace Machine

/-! ## The handlers -/

/-- The load of a byte (R142). -/
theorem exec_ldByte (x : RegNum) (kk : Byte) (s : State) : exec (.ldByte x kk) s = .next (s.setReg x kk) := rfl

/-- The add without a flag (R143). -/
theorem exec_addByte (x : RegNum) (kk : Byte) (s : State) :
    exec (.addByte x kk) s = .next (s.setReg x (s.reg x + kk)) := rfl

/-- The masked random byte (R153). -/
theorem exec_rnd (x : RegNum) (kk : Byte) (s : State) :
    exec (.rnd x kk) s = .next { s.setReg x (s.rnd &&& kk) with draws := s.draws + 1 } := rfl

/-- The count of draws is no register. -/
theorem State.reg_with_draws (s : State) (n : Nat) (r : RegNum) : { s with draws := n }.reg r = s.reg r := rfl

/-! ## The obligations -/

/-- Settles O40: a bit of `RND` passes where the mask `KK` has one, so the mask's complement keeps none of them. -/
theorem randomByteIsMasked : Obligations.RandomByteIsMasked := by
  refine ⟨fun _ => decodeWord_eq_rnd, fun x kk s => ⟨_, exec_rnd x kk s, fun k => ?_, ?_, fun r hr => ?_, rfl, rfl⟩⟩
  · rw [State.reg_with_draws, State.reg_setReg_same, BitVec.getLsbD_and]
  · rw [State.reg_with_draws, State.reg_setReg_same, BitVec.and_assoc, BitVec.and_not_self]
    exact BitVec.and_zero
  · rw [State.reg_with_draws, State.reg_setReg_ne s _ hr]

/-- Settles O33: the handler is one write of `V[X]`. -/
theorem loadByteSetsOneRegister : Obligations.LoadByteSetsOneRegister :=
  ⟨fun _ => decodeWord_eq_ldByte, fun x kk s =>
    ⟨_, exec_ldByte x kk s, s.reg_setReg_same x kk, fun _ hr => s.reg_setReg_ne kk hr, s.setReg_frame x kk⟩⟩

/-- Settles O34: the handler is one write of `V[X]`, and the sum of two bytes is taken modulo 256; the flag is a register like any other
here. -/
theorem addByteWrapsWithoutAFlag : Obligations.AddByteWrapsWithoutAFlag := by
  refine ⟨fun _ => decodeWord_eq_addByte, fun x kk s =>
    ⟨_, exec_addByte x kk s, ?_, fun _ hr => s.reg_setReg_ne _ hr, s.setReg_frame x _⟩⟩
  rw [State.reg_setReg_same]
  exact BitVec.toNat_add (s.reg x) kk

end Machine
end Sys2Proof
end

section
/-! SUPPORT. The decimal store (spec/43_index_and_memory.md R174): three digits at `I`, or `MemRange` with nothing stored. -/

namespace Sys2Proof

/-- The words of the decimal store (R77). -/
theorem decodeWord_eq_ldB {w : Word} (hT : opT w = 0xF) (hKK : opKK w = 0x33) : decodeWord w = .ldB (opX w) := by
  simp [decodeWord, decodeF, hT, hKK]

namespace Machine

/-! ## The fault of a block -/

/-- The lowest address outside memory of a block at `I` that passes `0x0FFF` (R56). -/
theorem State.memRangeInfo_eq_max (s : State) : s.memRangeInfo = BitVec.ofNat 16 (max s.i.toNat 0x1000) := by
  unfold State.memRangeInfo
  split
  · rw [Nat.max_eq_right (by omega)]
    rfl
  · rw [Nat.max_eq_left (by omega), BitVec.ofNat_toNat, BitVec.setWidth_eq]

/-- What a block instruction's handler leaves when its range test fails. -/
theorem State.raise_memRange_eq (s : State) : s.raise .memRange s.memRangeInfo = { s with
    pc := s.pc - 2
    err := { code := .memRange, epc := s.pc - 2, eop := s.opcode, info := BitVec.ofNat 16 (max s.i.toNat 0x1000) } } := by
  rw [State.memRangeInfo_eq_max, State.raise]

/-! ## The handler -/

/-- The store with its three addresses in memory. -/
theorem exec_ldB_of_le (x : RegNum) {s : State} (h : s.i.toNat + 3 ≤ memSize) :
    exec (.ldB x) s = .next { s with mem := Memory.writeBytes s.mem s.i.toNat (bcdDigits (s.reg x)) } := by
  rw [exec, execLdB, State.withBlock_ok s 3 _ (.inr h)]

/-- The store with an address outside memory (R223). -/
theorem exec_ldB_fault (x : RegNum) {s : State} (h : memSize < s.i.toNat + 3) :
    exec (.ldB x) s = .next (s.raise .memRange s.memRangeInfo) := by
  rw [exec, execLdB, State.withBlock_fault s 3 _ (by decide) h]

/-- The three bytes are the decimal digits of the value, and each is a digit: the hundreds of a byte are at most 2. -/
theorem bcdDigits_spec (b : Byte) : ∃ h d o : Byte, bcdDigits b = [h, d, o] ∧
    100 * h.toNat + 10 * d.toNat + o.toNat = b.toNat ∧ h.toNat ≤ 2 ∧ d.toNat ≤ 9 ∧ o.toNat ≤ 9 := by
  have hb := b.isLt
  refine ⟨_, _, _, rfl, ?_⟩
  simp only [BitVec.toNat_ofNat]
  omega

/-! ## The obligation -/

/-- Settles O42: the handler is one store of the list of digits behind the range test, so byte `I + k` reads as its `k`-th digit and a
byte outside the three as before. -/
theorem decimalDigitsAreStoredAtI : Obligations.DecimalDigitsAreStoredAtI := by
  refine ⟨fun _ => decodeWord_eq_ldB, fun x s hout => ?_, fun x s hwf hin => ?_⟩
  · have hfault : memSize < s.i.toNat + 3 := by simp only [memSize]; omega
    rw [exec_ldB_fault x hfault, State.raise_memRange_eq]
  · have hok : s.i.toNat + 3 ≤ memSize := by simp only [memSize]; omega
    obtain ⟨h, d, o, hdigits, hspec⟩ := bcdDigits_spec (s.reg x)
    have hexec := exec_ldB_of_le x hok
    rw [hdigits] at hexec
    have hread : ∀ {k : Nat} {b : Byte}, [h, d, o][k]? = some b →
        Memory.read (Memory.writeBytes s.mem s.i.toNat [h, d, o]) (s.i.toNat + k) = b :=
      Memory.read_writeBytes_inside _ hwf _ _ hok
    refine ⟨_, hexec, ?_, fun a ha => Memory.read_writeBytes_outside _ _ _ ?_, rfl⟩
    · have hh := hread (k := 0) rfl
      rw [Nat.add_zero] at hh
      simpa only [hh, hread (k := 1) rfl, hread (k := 2) rfl] using hspec
    · show a < s.i.toNat ∨ s.i.toNat + 3 ≤ a
      omega

end Machine
end Sys2Proof
end

section
/-! SUPPORT. The clear of the screen (spec/44_display.md R190). -/

namespace Sys2Proof

/-- The words of the clear: the eight bits between the family and the key are free (R74). -/
theorem decodeWord_eq_cls {w : Word} (hT : opT w = 0x0) (hN : opN w = 0x0) : decodeWord w = .cls (opMid w) := by
  simp [decodeWord, decode0, hT, hN]

namespace Machine

/-- The clear (R190), whatever its ignored bits. -/
theorem exec_cls (ign : Byte) (s : State) : exec (.cls ign) s = .next { s with fb := Screen.blank } := rfl

/-- Settles O48: the handler puts the blank screen in place of the framebuffer, and every pixel of that screen is off. -/
theorem clearTurnsEveryPixelOff : Obligations.ClearTurnsEveryPixelOff :=
  ⟨fun _ => decodeWord_eq_cls, fun ign s => ⟨_, exec_cls ign s, Screen.pixel_blank, rfl⟩⟩

end Machine
end Sys2Proof
end

section
/-! SUPPORT. The keypad and the timers (spec/45_keypad_and_timers.md): the skips on a key, the key wait, the timer moves. -/

namespace Sys2Proof

/-! ## The words of each instruction (R76, R77) -/

section
variable {w : Word}

theorem decodeWord_eq_skp (hT : opT w = 0xE) (hN : opN w = 0xE) : decodeWord w = .skp (opX w) (opY w) := by
  simp [decodeWord, decodeE, hT, hN]

theorem decodeWord_eq_sknp (hT : opT w = 0xE) (hN : opN w = 0x1) : decodeWord w = .sknp (opX w) (opY w) := by
  simp [decodeWord, decodeE, hT, hN]

theorem decodeWord_eq_ldVxDt (hT : opT w = 0xF) (hKK : opKK w = 0x07) : decodeWord w = .ldVxDt (opX w) := by
  simp [decodeWord, decodeF, hT, hKK]

theorem decodeWord_eq_ldVxK (hT : opT w = 0xF) (hKK : opKK w = 0x0A) : decodeWord w = .ldVxK (opX w) := by
  simp [decodeWord, decodeF, hT, hKK]

theorem decodeWord_eq_ldDtVx (hT : opT w = 0xF) (hKK : opKK w = 0x15) : decodeWord w = .ldDtVx (opX w) := by
  simp [decodeWord, decodeF, hT, hKK]

theorem decodeWord_eq_ldStVx (hT : opT w = 0xF) (hKK : opKK w = 0x18) : decodeWord w = .ldStVx (opX w) := by
  simp [decodeWord, decodeF, hT, hKK]

end

namespace Machine

/-! ## The skips on a key (R200, R201) -/

/-- A skip on a key that exists. -/
theorem State.skipKey_of_le {s : State} {x : RegNum} (h : (s.reg x).toNat ≤ 15) (pressed : Bool) :
    s.skipKey x pressed = s.skipIf (s.keys.getLsbD (s.reg x).toNat == pressed) :=
  ((s.skipKey_cases x pressed).resolve_right fun hout => Nat.not_lt.mpr h hout.1).2

/-- A skip on a key number above 15 (R225). -/
theorem State.skipKey_fault {s : State} {x : RegNum} (h : 15 < (s.reg x).toNat) (pressed : Bool) :
    s.skipKey x pressed = s.raise .keyRange (byteWord (s.reg x)) :=
  ((s.skipKey_cases x pressed).resolve_left fun hkey => Nat.not_le.mpr h hkey.1).2

/-- The skip on a pressed key (R200). -/
theorem exec_skp (x : RegNum) (g : Nibble) (s : State) : exec (.skp x g) s = .next (s.skipKey x true) := rfl

/-- The skip on a released key (R201). -/
theorem exec_sknp (x : RegNum) (g : Nibble) (s : State) : exec (.sknp x g) s = .next (s.skipKey x false) := rfl

/-- Where a skip on a key in the wanted position goes (R127). -/
theorem State.skipIf_key_pc (s : State) (key pressed : Bool) :
    (s.skipIf (key == pressed)).pc = if key = pressed then s.pc + 2 else s.pc := by
  simp

/-! ## The scan of the keypad (R202) -/

/-- The scan finds a key exactly when it is down and every key below it is up. -/
theorem State.lowestKey_eq_some_iff {s : State} {k : Nat} : s.lowestKey = some k ↔
    k < 16 ∧ s.keys.getLsbD k = true ∧ ∀ j, j < k → s.keys.getLsbD j = false := by
  simp only [State.lowestKey, State.key, List.find?_range_eq_some, List.mem_range, Bool.not_eq_true', and_left_comm]

/-- The scan finds no key exactly when none is down. -/
theorem State.lowestKey_eq_none_iff {s : State} : s.lowestKey = none ↔ s.keys = 0 := by
  simp only [State.lowestKey, State.key, List.find?_range_eq_none, Bool.not_eq_true']
  constructor
  · intro hup
    apply BitVec.eq_of_getLsbD_eq
    intro k hk
    rw [hup k hk]
    exact BitVec.getLsbD_zero.symm
  · intro h0 k _
    rw [h0]
    exact BitVec.getLsbD_zero

/-- The key wait with a key down. -/
theorem exec_ldVxK_of_some (x : RegNum) {s : State} {k : Nat} (h : s.lowestKey = some k) :
    exec (.ldVxK x) s = .next (s.setReg x (BitVec.ofNat 8 k)) := by
  rw [exec, execLdVxK, h]

/-- The key wait with no key down: the instruction runs again. -/
theorem exec_ldVxK_of_none (x : RegNum) {s : State} (h : s.lowestKey = none) :
    exec (.ldVxK x) s = .next { s with pc := s.pc - 2 } := by
  rw [exec, execLdVxK, h]

/-! ## The timer moves (R203 to R205) -/

/-- The read of the delay timer (R203). -/
theorem exec_ldVxDt (x : RegNum) (s : State) : exec (.ldVxDt x) s = .next (s.setReg x s.dt) := rfl

/-- The write of the delay timer (R204). -/
theorem exec_ldDtVx (x : RegNum) (s : State) : exec (.ldDtVx x) s = .next { s with dt := s.reg x } := rfl

/-- The write of the sound timer (R205). -/
theorem exec_ldStVx (x : RegNum) (s : State) : exec (.ldStVx x) s = .next { s with st := s.reg x } := rfl

/-! ## The obligations -/

/-- Settles O51: both skips are `skipKey`, which splits on whether the register's value is the number of a key. -/
theorem keySkipsTestTheKeyNumberedByTheRegister : Obligations.KeySkipsTestTheKeyNumberedByTheRegister := by
  refine ⟨fun w hT => ⟨decodeWord_eq_skp hT, decodeWord_eq_sknp hT⟩, fun x g s => ⟨fun hkey => ?_, fun hout => ?_⟩⟩
  · rw [exec_skp, exec_sknp, State.skipKey_of_le hkey, State.skipKey_of_le hkey]
    exact ⟨⟨_, rfl, s.skipIf_key_pc _ _, s.skipIf_frame _⟩, ⟨_, rfl, s.skipIf_key_pc _ _, s.skipIf_frame _⟩⟩
  · have hskp := exec_skp x g s
    have hsknp := exec_sknp x g s
    rw [State.skipKey_fault hout] at hskp hsknp
    exact List.forall_mem_cons.mpr ⟨hskp, List.forall_mem_singleton.mpr hsknp⟩

/-- Settles O52: the scan finds the least pressed key, whose number fits a byte, or none. -/
theorem keyWaitTakesTheLeastKeyOrRepeats : Obligations.KeyWaitTakesTheLeastKeyOrRepeats := by
  refine ⟨fun w => decodeWord_eq_ldVxK, fun x s => ⟨fun k hk hdown hleast => ?_, fun hup => ?_⟩⟩
  · have hscan := State.lowestKey_eq_some_iff.mpr ⟨hk, hdown, hleast⟩
    refine ⟨_, exec_ldVxK_of_some x hscan, ?_, fun r hr => s.reg_setReg_ne _ hr, s.setReg_frame x _⟩
    rw [State.reg_setReg_same, BitVec.toNat_ofNat]
    exact Nat.mod_eq_of_lt (by omega)
  · exact exec_ldVxK_of_none x (State.lowestKey_eq_none_iff.mpr hup)

/-- Settles O54: each handler is one write, of a register or of a timer. -/
theorem timerMovesReadAndSetTheTimers : Obligations.TimerMovesReadAndSetTheTimers :=
  ⟨fun _ hT => ⟨decodeWord_eq_ldVxDt hT, decodeWord_eq_ldDtVx hT, decodeWord_eq_ldStVx hT⟩, fun x s =>
    ⟨⟨_, exec_ldVxDt x s, s.reg_setReg_same x _, fun _ hr => s.reg_setReg_ne _ hr, s.setReg_frame x _⟩,
      ⟨_, exec_ldDtVx x s, rfl, rfl⟩, ⟨_, exec_ldStVx x s, rfl, rfl⟩⟩⟩

end Machine
end Sys2Proof
end

section
/-! SUPPORT. The faults (spec/60_exceptions.md R220, R226, R227): a handler raises exactly what the table of faults gives it, a step that takes a
fault changes `ERR` alone, and a halted core does nothing. -/

namespace Sys2Proof.Machine

/-! ## The table of faults -/

/-- The table of faults reads nothing that the beginning of a cycle writes. -/
@[simp] theorem faultOf_beginCycle (i : Instr) (s : State) (k : BitVec 16) (r : Byte) :
    faultOf i (s.beginCycle k r) = faultOf i s := by
  cases i <;> rfl

/-- Every entry of the table is a real cause. -/
theorem faultOf_code_ne {i : Instr} {s : State} {c : ErrCode} {info : Word} (h : faultOf i s = some (c, info)) : c ≠ .noFault := by
  rintro rfl
  cases i <;> simp [faultOf] at h

/-- The table's entry for a call on a full stack (R221). -/
theorem faultOf_call_full (nnn : Addr) {s : State} (h : s.sp.val = 16) :
    faultOf (.call nnn) s = some (.stackOverflow, addrWord nnn) := by
  rw [faultOf, if_pos h, BitVec.ofNat_toNat, addrWord]

/-- The table's entry for a return on an empty stack (R222). -/
theorem faultOf_ret_empty (g : Byte) {s : State} (h : s.sp.val = 0) : faultOf (.ret g) s = some (.stackUnderflow, 0) :=
  if_pos h

/-! ## The handlers follow the table -/

/-- A handler that leaves `t` follows an entry of the table: without a cause it keeps the latch, with one it raises that fault and does
nothing else (R226). -/
def State.FollowsEntry (s t : State) : Option (ErrCode × Word) → Prop
  | none => t.err = s.err
  | some (c, info) => t = s.raise c info

/-- A block of `n` bytes follows an entry whose condition says that the block passes `0x0FFF` (R223). -/
theorem State.withBlock_followsEntry {s t : State} {n : Nat} {out : Prop} [Decidable out] (ht : t.err = s.err)
    (hout : out ↔ 0 < n ∧ memSize < s.i.toNat + n) :
    s.FollowsEntry (s.withBlock n t) (if out then some (.memRange, BitVec.ofNat 16 (max s.i.toNat 0x1000)) else none) := by
  rcases s.withBlock_cases t n with ⟨hin, e⟩ | ⟨hpast, e⟩
  · have hno : ¬ out := by rw [hout]; omega
    rw [e, if_neg hno]
    exact ht
  · rw [e, if_pos (hout.mpr hpast), State.memRangeInfo_eq_max]
    rfl

/-- A key skip follows its entry (R225). -/
theorem State.skipKey_followsEntry (s : State) (x : RegNum) (pressed : Bool) :
    s.FollowsEntry (s.skipKey x pressed) (if 15 < (s.reg x).toNat then some (.keyRange, BitVec.ofNat 16 (s.reg x).toNat) else none) := by
  rcases s.skipKey_cases x pressed with ⟨hkey, e⟩ | ⟨hout, e⟩
  · rw [e, if_neg (Nat.not_lt.mpr hkey)]
    rfl
  · rw [e, if_pos hout, BitVec.ofNat_toNat]
    rfl

/-- Every handler follows the table of faults (R220). -/
theorem exec_followsEntry {i : Instr} {s t : State} (h : exec i s = .next t) : s.FollowsEntry t (faultOf i s) := by
  cases i
  case call nnn =>
    rcases execCall_cases h with ⟨hroom, rfl⟩ | ⟨hfull, rfl⟩
    · rw [faultOf, if_neg (Nat.ne_of_lt hroom)]; rfl
    · rw [faultOf_call_full nnn hfull]; rfl
  case ret g =>
    rcases execRet_cases h with ⟨hpos, rfl⟩ | ⟨hempty, rfl⟩
    · rw [faultOf, if_neg (Nat.ne_of_gt hpos)]; rfl
    · rw [faultOf_ret_empty g hempty]; rfl
  case drw x y n => cases h; exact State.withBlock_followsEntry rfl (by simp only [memSize]; omega)
  case ldB x => cases h; exact State.withBlock_followsEntry rfl (by simp only [memSize]; omega)
  case storeRegs x => cases h; exact State.withBlock_followsEntry rfl (by simp only [memSize]; omega)
  case loadRegs x =>
    cases h
    exact State.withBlock_followsEntry (by rw [State.loadFirstRegs_frame]) (by simp only [memSize]; omega)
  case skp x g => cases h; exact s.skipKey_followsEntry x true
  case sknp x g => cases h; exact s.skipKey_followsEntry x false
  case ldVxK x => rcases execLdVxK_cases h with ⟨_, _, rfl⟩ | ⟨_, rfl⟩ <;> rfl
  all_goals cases h; rfl

/-! ## The whole step -/

/-- The handler of a cycle answers a state that follows the table's entry for the state the cycle began in, whatever the inputs. -/
theorem exec_current_followsEntry (s : State) (k : BitVec 16) (r : Byte) :
    ∃ t, exec s.current (s.beginCycle k r) = .next t ∧ (s.beginCycle k r).FollowsEntry t (faultOf s.current s) := by
  obtain ⟨t, ht⟩ := exec_next s.current (s.beginCycle k r)
  have hfollows := exec_followsEntry ht
  rw [faultOf_beginCycle] at hfollows
  exact ⟨t, ht, hfollows⟩

/-- A step whose instruction the table gives a cause takes that fault and changes `ERR` alone (R106, R226). -/
theorem step_of_faultOf_eq_some {s : State} {c : ErrCode} {info : Word} (hrun : s.Running) (hf : faultOf s.current s = some (c, info)) :
    step s = .next { s with err := { code := c, epc := s.pc, eop := s.fetchWord, info := info } } := by
  refine step_of_exec_raise hrun (faultOf_code_ne hf) fun k r => ?_
  obtain ⟨t, ht, hfollows⟩ := exec_current_followsEntry s k r
  rw [hf] at hfollows
  obtain rfl : t = (s.beginCycle k r).raise c info := hfollows
  exact ht

/-- A step whose instruction the table gives no cause takes no fault. -/
theorem step_of_faultOf_eq_none {s : State} (hrun : s.Running) (hf : faultOf s.current s = none) :
    ∃ t, step s = .next t ∧ t.err = s.err := by
  obtain ⟨hok, hpc⟩ := hrun
  obtain ⟨t, ht, hfollows⟩ := exec_current_followsEntry s (Config.keySnapshot s.samples) (Config.randomByte s.draws)
  rw [hf] at hfollows
  have herr : t.err = s.err := hfollows
  refine ⟨t.tick, ?_, herr⟩
  rw [step_eq, cycle_run _ _ s t hok hpc ht, State.finishCycle_ok s t (by rw [herr, hok])]

/-! ## The obligations -/

/-- Settles O12: the fetch's fault comes first; otherwise the handler follows the table, and the step with it. -/
theorem faultsAreExactlyTheListedOnesAndPrecise : Obligations.FaultsAreExactlyTheListedOnesAndPrecise := by
  refine fun s hok => ⟨fetchOutsideMemoryFaults s hok, fun hpc => ?_⟩
  cases hf : faultOf s.current s with
  | none => exact step_of_faultOf_eq_none ⟨hok, hpc⟩ hf
  | some entry => exact ⟨_, step_of_faultOf_eq_some ⟨hok, hpc⟩ hf, rfl⟩

/-- Settles O30: the two stack faults are entries of the table. -/
theorem stackFaultsStopTheCore : Obligations.StackFaultsStopTheCore := by
  refine ⟨fun s nnn hrun hcall hfull => ?_, fun s g hrun hret hempty => ?_⟩
  · exact step_of_faultOf_eq_some hrun (by rw [hcall, faultOf_call_full nnn hfull, addrWord])
  · exact step_of_faultOf_eq_some hrun (by rw [hret, faultOf_ret_empty g hempty])

/-- Settles O9: a cycle of a halted core answers the same state whatever its inputs, those of the step among them. -/
theorem haltedCoreDoesNothing : Obligations.HaltedCoreDoesNothing := by
  intro s hhalt
  have hcycle : ∀ k r, cycle k r s = .next s := fun k r => cycle_halted k r s hhalt
  exact ⟨hcycle _ _, hcycle⟩

end Sys2Proof.Machine
end

section
/-! SUPPORT. Reset and the program load (spec/70_reset_and_hazards.md R250 to R257): the font in memory, and the two answers of the load. -/

namespace Sys2Proof.Machine

/-! ## Reset with a font (R251) -/

/-- Outside the font area an unlisted address reads as zero, whatever the default font holds there. -/
theorem Memory.initial_outside_font {a : Nat} (h : a < 0x050 ∨ 0x0A0 ≤ a) : Memory.initial a = 0 := by
  have hout : ¬ (fontBase ≤ a ∧ a < fontBase + fontSize) := by
    simp only [fontBase, fontSize]
    omega
  exact if_neg hout

/-- The font replaces the default one byte by byte. -/
theorem State.read_resetWith_font (font : Vector Byte 80) (k : Fin 80) :
    Memory.read (State.resetWith font).mem (0x050 + k.val) = font[k] := by
  have hfits : fontBase + font.toList.length ≤ memSize := by rw [Vector.length_toList]; decide
  exact Memory.read_writeBytes_inside _ Memory.wf_nil _ _ hfits (by simp)

/-- No font reaches past its own area. -/
theorem State.read_resetWith_outside_font (font : Vector Byte 80) {a : Nat} (h : a < 0x050 ∨ 0x0A0 ≤ a) :
    Memory.read (State.resetWith font).mem a = 0 := by
  have hout : a < fontBase ∨ fontBase + font.toList.length ≤ a := by rwa [Vector.length_toList]
  calc Memory.read (State.resetWith font).mem a
      _ = Memory.initial a := Memory.read_writeBytes_outside _ _ _ hout
      _ = 0 := Memory.initial_outside_font h

/-- Every register is zero after reset. -/
theorem State.reg_resetWith (font : Vector Byte 80) (r : RegNum) : (State.resetWith font).reg r = 0 :=
  Vector.getElem_replicate _

/-- Every entry of the call stack is zero after reset. -/
theorem State.stack_resetWith (font : Vector Byte 80) (k : Fin 16) : (State.resetWith font).stack[k] = 0 :=
  Vector.getElem_replicate _

/-! ## The load (R255, R256) -/

/-- An image that fits is stored from `0x200` up. -/
theorem State.load_of_length_le {image : List Byte} (h : image.length ≤ 3584) (s : State) :
    s.load image = some { s with mem := Memory.writeBytes s.mem progBase image } :=
  if_pos h

/-- An image that does not fit is rejected. -/
theorem State.load_of_length_gt {image : List Byte} (h : 3584 < image.length) (s : State) : s.load image = none :=
  if_neg (Nat.not_le.mpr h)

/-- The launch with an image that fits is the load into reset. -/
theorem State.load_resetWith_of_length_le {image : List Byte} (h : image.length ≤ 3584) (font : Vector Byte 80) :
    (State.resetWith font).load image = some (State.launch font image) := by
  rw [State.launch, State.load_of_length_le h, Option.getD_some]

/-- The launch with an image that does not fit is reset (R257). -/
theorem State.launch_of_length_gt {image : List Byte} (h : 3584 < image.length) (font : Vector Byte 80) :
    State.launch font image = State.resetWith font := by
  rw [State.launch, State.load_of_length_gt h, Option.getD_none]

/-! ## The obligations -/

/-- Settles O58: an accepted image is one block of stores, which reads back inside and changes nothing outside, and it ends at or below the
end of memory because 3584 is `4096 - 0x200`. -/
theorem loadCopiesTheImageOrRejectsIt : Obligations.LoadCopiesTheImageOrRejectsIt := by
  refine ⟨fun image s hwf hlen => ⟨_, State.load_of_length_le hlen s, fun j b hj => ?_, fun a ha => ?_, rfl⟩,
    fun image s hlen => State.load_of_length_gt hlen s,
    fun font image => ⟨fun h => State.load_resetWith_of_length_le h font, fun h => State.launch_of_length_gt h font⟩⟩
  · have hfits : progBase + image.length ≤ memSize := by
      simp only [progBase, memSize]
      omega
    exact Memory.read_writeBytes_inside image hwf progBase j hfits hj
  · exact Memory.read_writeBytes_outside image s.mem progBase ha

/-- Settles O56: reset writes the font into zeroed memory, and every other item is the constant of R35. -/
theorem resetLeavesTheListedValues : Obligations.ResetLeavesTheListedValues := fun font =>
  ⟨State.reg_resetWith font, rfl, rfl, State.read_resetWith_font font, fun _ ha => State.read_resetWith_outside_font font ha,
    State.stack_resetWith font, rfl, rfl, rfl, Screen.pixel_blank, rfl, rfl⟩

end Sys2Proof.Machine
end

section
/-! SUPPORT. The round trips of the decoder and the encoder, and the words that differ in ignored bits only (spec/30_encoding.md R78 to R82). -/

namespace Sys2Proof

/-! ## The words of each remaining instruction (R73 to R77) -/

section
variable {w : Word}

theorem decodeWord_eq_ldReg (hT : opT w = 0x8) (hN : opN w = 0x0) : decodeWord w = .ldReg (opX w) (opY w) := by
  simp [decodeWord, decode8, hT, hN]

theorem decodeWord_eq_orReg (hT : opT w = 0x8) (hN : opN w = 0x1) : decodeWord w = .orReg (opX w) (opY w) := by
  simp [decodeWord, decode8, hT, hN]

theorem decodeWord_eq_andReg (hT : opT w = 0x8) (hN : opN w = 0x2) : decodeWord w = .andReg (opX w) (opY w) := by
  simp [decodeWord, decode8, hT, hN]

theorem decodeWord_eq_xorReg (hT : opT w = 0x8) (hN : opN w = 0x3) : decodeWord w = .xorReg (opX w) (opY w) := by
  simp [decodeWord, decode8, hT, hN]

theorem decodeWord_eq_addReg (hT : opT w = 0x8) (hN : opN w = 0x4) : decodeWord w = .addReg (opX w) (opY w) := by
  simp [decodeWord, decode8, hT, hN]

theorem decodeWord_eq_subReg (hT : opT w = 0x8) (hN : opN w = 0x5) : decodeWord w = .subReg (opX w) (opY w) := by
  simp [decodeWord, decode8, hT, hN]

theorem decodeWord_eq_shr (hT : opT w = 0x8) (hN : opN w = 0x6) : decodeWord w = .shr (opX w) (opY w) := by
  simp [decodeWord, decode8, hT, hN]

theorem decodeWord_eq_subn (hT : opT w = 0x8) (hN : opN w = 0x7) : decodeWord w = .subn (opX w) (opY w) := by
  simp [decodeWord, decode8, hT, hN]

theorem decodeWord_eq_shl (hT : opT w = 0x8) (hN : opN w = 0xE) : decodeWord w = .shl (opX w) (opY w) := by
  simp [decodeWord, decode8, hT, hN]

theorem decodeWord_eq_ldI (h : opT w = 0xA) : decodeWord w = .ldI (opNNN w) := by simp [decodeWord, h]

theorem decodeWord_eq_jpV0 (h : opT w = 0xB) : decodeWord w = .jpV0 (opNNN w) := by simp [decodeWord, h]

theorem decodeWord_eq_drw (h : opT w = 0xD) : decodeWord w = .drw (opX w) (opY w) (opN w) := by simp [decodeWord, h]

theorem decodeWord_eq_addI (hT : opT w = 0xF) (hKK : opKK w = 0x1E) : decodeWord w = .addI (opX w) := by
  simp [decodeWord, decodeF, hT, hKK]

theorem decodeWord_eq_ldF (hT : opT w = 0xF) (hKK : opKK w = 0x29) : decodeWord w = .ldF (opX w) := by
  simp [decodeWord, decodeF, hT, hKK]

theorem decodeWord_eq_storeRegs (hT : opT w = 0xF) (hKK : opKK w = 0x55) : decodeWord w = .storeRegs (opX w) := by
  simp [decodeWord, decodeF, hT, hKK]

theorem decodeWord_eq_loadRegs (hT : opT w = 0xF) (hKK : opKK w = 0x65) : decodeWord w = .loadRegs (opX w) := by
  simp [decodeWord, decodeF, hT, hKK]

end

/-- The word of a well-formed no-op decodes to that no-op: it matches no row of the opcode map (R79). -/
theorem decodeWord_of_undefinedWord {w : Word} (h : undefinedWord w = true) : decodeWord w = .nop w :=
  decoderFollowsTheOpcodeMap.2.1 w fun r hr => bne_iff_ne.1 (List.all_eq_true.1 h r hr)

/-! ## The fields of two words that differ in ignored bits -/

/-- `X` under a mask. -/
@[simp] theorem opX_and (w m : Word) : opX (w &&& m) = opX w &&& opX m := BitVec.extractLsb'_and

/-- `Y` under a mask. -/
@[simp] theorem opY_and (w m : Word) : opY (w &&& m) = opY w &&& opY m := BitVec.extractLsb'_and

/-- `T` with bits set. -/
@[simp] theorem opT_or (w m : Word) : opT (w ||| m) = opT w ||| opT m := BitVec.extractLsb'_or

/-- `X` with bits set. -/
@[simp] theorem opX_or (w m : Word) : opX (w ||| m) = opX w ||| opX m := BitVec.extractLsb'_or

/-- `N` with bits set. -/
@[simp] theorem opN_or (w m : Word) : opN (w ||| m) = opN w ||| opN m := BitVec.extractLsb'_or

/-- The mask that clears `N` keeps `T`, `X` and `Y`. -/
theorem fields_and_FFF0 (w : Word) : opT (w &&& 0xFFF0) = opT w ∧ opX (w &&& 0xFFF0) = opX w ∧ opY (w &&& 0xFFF0) = opY w := by
  simp only [opT_and, opX_and, opY_and]
  exact ⟨BitVec.and_allOnes, BitVec.and_allOnes, BitVec.and_allOnes⟩

/-- Another `Y` keeps `T`, `X` and `N`. -/
theorem fields_and_FF0F_or (w m : Word) (hT : opT m = 0) (hX : opX m = 0) (hN : opN m = 0) :
    opT (w &&& 0xFF0F ||| m) = opT w ∧ opX (w &&& 0xFF0F ||| m) = opX w ∧ opN (w &&& 0xFF0F ||| m) = opN w := by
  simp only [opT_or, opX_or, opN_or, opT_and, opX_and, opN_and, hT, hX, hN]
  exact ⟨BitVec.or_zero.trans BitVec.and_allOnes, BitVec.or_zero.trans BitVec.and_allOnes, BitVec.or_zero.trans BitVec.and_allOnes⟩

/-! ## The obligations -/

/-- Settles O1: the fields of an encoding are the operands and the keys of its constructor, and those keys choose the constructor again; the
no-op, which has no keys, is left to its word. -/
theorem encodeThenDecodeGivesTheInstruction : Obligations.EncodeThenDecodeGivesTheInstruction := by
  intro i hwf
  cases i
  case nop w => exact decodeWord_of_undefinedWord hwf
  all_goals simp [encode, decodeWord_eq_cls, decodeWord_eq_ret, decodeWord_eq_jp, decodeWord_eq_call, decodeWord_eq_seByte,
    decodeWord_eq_sneByte, decodeWord_eq_seReg, decodeWord_eq_ldByte, decodeWord_eq_addByte, decodeWord_eq_ldReg, decodeWord_eq_orReg,
    decodeWord_eq_andReg, decodeWord_eq_xorReg, decodeWord_eq_addReg, decodeWord_eq_subReg, decodeWord_eq_shr, decodeWord_eq_subn,
    decodeWord_eq_shl, decodeWord_eq_sneReg, decodeWord_eq_ldI, decodeWord_eq_jpV0, decodeWord_eq_rnd, decodeWord_eq_drw,
    decodeWord_eq_skp, decodeWord_eq_sknp, decodeWord_eq_ldVxDt, decodeWord_eq_ldVxK, decodeWord_eq_ldDtVx, decodeWord_eq_ldStVx,
    decodeWord_eq_addI, decodeWord_eq_ldF, decodeWord_eq_ldB, decodeWord_eq_storeRegs, decodeWord_eq_loadRegs]

/-- Settles O2: a decoded no-op carries a word no row matches, and every other instruction the fields of the word. -/
theorem decodeThenEncodeGivesTheWord : Obligations.DecodeThenEncodeGivesTheWord :=
  fun w => ⟨wellFormed_decodeWord w, encode_decodeWord w⟩

/-- Settles O5: the two words have the same keys and the same operands that are read, and no handler sees the bits that differ. -/
theorem aliasWordsRunTheirInstruction : Obligations.AliasWordsRunTheirInstruction := by
  refine ⟨fun w hT hN s => ?_, fun w hT hN s => ?_, fun w hT s => ?_, fun w hT s => ?_, fun w hT hN s => ?_, fun w hT hN s => ?_⟩
  · rw [decodeWord_eq_cls hT hN, decodeWord_eq_cls (w := 0x00E0) rfl rfl]; rfl
  · rw [decodeWord_eq_ret hT hN, decodeWord_eq_ret (w := 0x00EE) rfl rfl]; rfl
  · obtain ⟨hT', hX', hY'⟩ := fields_and_FFF0 w
    rw [decodeWord_eq_seReg hT, decodeWord_eq_seReg (hT'.trans hT), hX', hY']; rfl
  · obtain ⟨hT', hX', hY'⟩ := fields_and_FFF0 w
    rw [decodeWord_eq_sneReg hT, decodeWord_eq_sneReg (hT'.trans hT), hX', hY']; rfl
  · obtain ⟨hT', hX', hN'⟩ := fields_and_FF0F_or w 0x0090 rfl rfl rfl
    rw [decodeWord_eq_skp hT hN, decodeWord_eq_skp (hT'.trans hT) (hN'.trans hN), hX']; rfl
  · obtain ⟨hT', hX', hN'⟩ := fields_and_FF0F_or w 0x00A0 rfl rfl rfl
    rw [decodeWord_eq_sknp hT hN, decodeWord_eq_sknp (hT'.trans hT) (hN'.trans hN), hX']; rfl

/-- Settles O6: each word is computed. -/
theorem writtenOutWordsDecode : Obligations.WrittenOutWordsDecode := by
  unfold Obligations.WrittenOutWordsDecode
  decide

end Sys2Proof
end

section
/-! SUPPORT. What a handler can change (the frame of every instruction), and the rules of spec/10_state.md, 20_memory.md and 45_keypad_and_timers.md
on who may write each part of the state. -/

namespace Sys2Proof.Machine

/-! ## The frame of a handler -/

/-- What the handler of `i` leaves alone when it raises no fault: `t` is `s` but for the fields named. -/
def FrameOf (i : Instr) (s t : State) : Prop :=
  match i with
  | .cls _ => t = { s with fb := t.fb }
  | .drw _ _ _ => t = { s with v := t.v, fb := t.fb }
  | .ret _ => t = { s with pc := t.pc, sp := t.sp }
  | .call _ => t = { s with pc := t.pc, sp := t.sp, stack := t.stack }
  | .jp _ | .jpV0 _ | .seByte _ _ | .sneByte _ _ | .seReg _ _ _ | .sneReg _ _ _ | .skp _ _ | .sknp _ _ => t = { s with pc := t.pc }
  | .ldByte _ _ | .addByte _ _ | .ldReg _ _ | .orReg _ _ | .andReg _ _ | .xorReg _ _ => t = { s with v := t.v }
  | .addReg _ _ | .subReg _ _ | .shr _ _ | .subn _ _ | .shl _ _ | .ldVxDt _ | .loadRegs _ => t = { s with v := t.v }
  | .rnd _ _ => t = { s with v := t.v, draws := s.draws + 1 }
  | .ldVxK _ => t = { s with v := t.v, pc := t.pc }
  | .ldI _ | .addI _ | .ldF _ => t = { s with i := t.i }
  | .ldB _ | .storeRegs _ => t = { s with mem := t.mem }
  | .ldDtVx _ => t = { s with dt := t.dt }
  | .ldStVx _ => t = { s with st := t.st }
  | .nop _ => t = s

/-- Every handler either raises a fault, and then that is all it does, or keeps to the frame of its instruction. -/
theorem exec_raise_or_frame {i : Instr} {s t : State} (h : exec i s = .next t) :
    (∃ c w, c ≠ ErrCode.noFault ∧ t = s.raise c w) ∨ FrameOf i s t := by
  cases i
  case ret g => rcases execRet_cases h with ⟨_, rfl⟩ | ⟨_, rfl⟩; exacts [.inr rfl, .inl ⟨_, _, by decide, rfl⟩]
  case call nnn => rcases execCall_cases h with ⟨_, rfl⟩ | ⟨_, rfl⟩; exacts [.inr rfl, .inl ⟨_, _, by decide, rfl⟩]
  case drw x y n => rcases execDrw_cases h with ⟨_, rfl⟩ | ⟨_, rfl⟩; exacts [.inr rfl, .inl ⟨_, _, by decide, rfl⟩]
  case ldB x => rcases execLdB_cases h with ⟨_, rfl⟩ | ⟨_, rfl⟩; exacts [.inr rfl, .inl ⟨_, _, by decide, rfl⟩]
  case storeRegs x => rcases execStoreRegs_cases h with ⟨_, rfl⟩ | ⟨_, rfl⟩; exacts [.inr rfl, .inl ⟨_, _, by decide, rfl⟩]
  case loadRegs x => rcases execLoadRegs_cases h with ⟨_, rfl⟩ | ⟨_, rfl⟩; exacts [.inr rfl, .inl ⟨_, _, by decide, rfl⟩]
  case skp x g => rcases execSkp_cases h with ⟨_, rfl⟩ | ⟨_, rfl⟩; exacts [.inr rfl, .inl ⟨_, _, by decide, rfl⟩]
  case sknp x g => rcases execSknp_cases h with ⟨_, rfl⟩ | ⟨_, rfl⟩; exacts [.inr rfl, .inl ⟨_, _, by decide, rfl⟩]
  case ldVxK x => rcases execLdVxK_cases h with ⟨_, _, rfl⟩ | ⟨_, rfl⟩ <;> exact .inr rfl
  all_goals cases h; exact .inr rfl

/-! ## Where `PC` and a register can go -/

/-- The target of an indexed jump does not wrap: it is at most `0x00FF + 0x0FFF` (R128). -/
theorem toNat_byteWord_add_addrWord (b : Byte) (nnn : Addr) : (byteWord b + addrWord nnn).toNat = b.toNat + nnn.toNat := by
  have hb := b.isLt
  have hn := nnn.isLt
  rw [BitVec.toNat_add, toNat_byteWord, toNat_addrWord]
  exact Nat.mod_eq_of_lt (by omega)

/-- A skip that moves `PC` moves it by 2 (R127). -/
theorem State.skipIf_pc_of_ne {s : State} {c : Bool} (h : (s.skipIf c).pc ≠ s.pc) : (s.skipIf c).pc = s.pc + 2 := by
  cases c
  · exact absurd rfl h
  · rfl

/-- A write of `V[x]` that changes `V[r]` is one of `V[r]`. -/
theorem State.eq_of_reg_setReg_ne {s : State} {x r : RegNum} {b : Byte} (h : (s.setReg x b).reg r ≠ s.reg r) : x = r := by
  by_contra hx
  exact h (s.reg_setReg_ne b (Ne.symm hx))

/-- The load of `V0` to `VX` leaves the registers above `X` (R176). -/
theorem State.reg_loadFirstRegs_above (s : State) (a : Nat) {x r : RegNum} (h : x.toNat < r.toNat) :
    (s.loadFirstRegs a (x.toNat + 1)).reg r = s.reg r := by
  rw [State.reg_loadFirstRegs s a _ x.isLt, if_neg (by omega)]

/-- `F` is the highest register number. -/
theorem regNum_eq_regF_or_lt (x : RegNum) : x = regF ∨ x.toNat < regF.toNat := by
  have := x.isLt
  simp only [regF]
  bv_omega

/-! ## Who may write what -/

/-- Settles O17: the frame of every other instruction names no memory, and a fault's neither. -/
theorem onlyTwoInstructionsStoreToMemory : Obligations.OnlyTwoInstructionsStoreToMemory := by
  intro i s t h hne
  obtain ⟨c, w, -, rfl⟩ | hframe := exec_raise_or_frame h
  · exact absurd rfl hne
  cases i
  case ldB x => exact .inl ⟨x, rfl⟩
  case storeRegs x => exact .inr ⟨x, rfl⟩
  all_goals exact absurd (congrArg State.mem hframe) hne

/-- Settles O18: the frame of every other instruction names no framebuffer. -/
theorem onlyClearAndDrawChangeTheScreen : Obligations.OnlyClearAndDrawChangeTheScreen := by
  intro i s t h hne
  obtain ⟨c, w, -, rfl⟩ | hframe := exec_raise_or_frame h
  · exact absurd rfl hne
  cases i
  case cls g => exact .inl ⟨g, rfl⟩
  case drw x y n => exact .inr ⟨x, y, n, rfl⟩
  all_goals exact absurd (congrArg State.fb hframe) hne

/-- `SP` is written by a call and a return only. -/
theorem writers_of_sp {i : Instr} {s t : State} (h : exec i s = .next t) (hne : t.sp ≠ s.sp) :
    (∃ nnn, i = .call nnn) ∨ (∃ g, i = .ret g) := by
  obtain ⟨c, w, -, rfl⟩ | hframe := exec_raise_or_frame h
  · exact absurd rfl hne
  cases i
  case call nnn => exact .inl ⟨nnn, rfl⟩
  case ret g => exact .inr ⟨g, rfl⟩
  all_goals exact absurd (congrArg State.sp hframe) hne

/-- The entries of the call stack are written by a call only. -/
theorem writers_of_stack {i : Instr} {s t : State} (h : exec i s = .next t) (hne : t.stack ≠ s.stack) : ∃ nnn, i = .call nnn := by
  obtain ⟨c, w, -, rfl⟩ | hframe := exec_raise_or_frame h
  · exact absurd rfl hne
  cases i
  case call nnn => exact ⟨nnn, rfl⟩
  all_goals exact absurd (congrArg State.stack hframe) hne

/-- Settles O20: one field at a time. -/
theorem writersOfIndexAndTimers : Obligations.WritersOfIndexAndTimers := by
  intro i s t h
  obtain ⟨c, w, -, rfl⟩ | hframe := exec_raise_or_frame h
  · exact ⟨absurd rfl, absurd rfl, absurd rfl⟩
  refine ⟨fun hne => ?_, fun hne => ?_, fun hne => ?_⟩
  · cases i
    case ldI nnn => exact .inl ⟨nnn, rfl⟩
    case addI x => exact .inr (.inl ⟨x, rfl⟩)
    case ldF x => exact .inr (.inr ⟨x, rfl⟩)
    all_goals exact absurd (congrArg State.i hframe) hne
  · cases i
    case ldDtVx x => exact ⟨x, rfl⟩
    all_goals exact absurd (congrArg State.dt hframe) hne
  · cases i
    case ldStVx x => exact ⟨x, rfl⟩
    all_goals exact absurd (congrArg State.st hframe) hne

/-- Settles O23: no frame names an input, `OPCODE` or the count of samples, and only that of `Cxkk` names the count of draws. -/
theorem inputsAreReadOnlyAndOneDrawForEachRandom : Obligations.InputsAreReadOnlyAndOneDrawForEachRandom := by
  intro i s t h
  cases i
  case rnd x kk => cases h; exact ⟨rfl, rfl, rfl, rfl, rfl⟩
  all_goals
    obtain ⟨c, w, -, rfl⟩ | hframe := exec_raise_or_frame h
    · exact ⟨rfl, rfl, rfl, rfl, rfl⟩
    · exact ⟨(congrArg State.keys hframe :), (congrArg State.rnd hframe :), (congrArg State.opcode hframe :),
        (congrArg State.samples hframe :), (congrArg State.draws hframe :)⟩

/-- Settles O21: a handler that raises nothing and whose frame names `PC` sets it to the address its rule gives; the skips and the key wait
move it by 2. -/
theorem writersOfThePc : Obligations.WritersOfThePc := by
  intro i s t hs h ht hne
  cases i
  case jp nnn => cases h; exact toNat_addrWord nnn
  case call nnn =>
    obtain ⟨_, rfl⟩ | ⟨_, rfl⟩ := execCall_cases h
    · exact toNat_addrWord nnn
    · cases ht
  case jpV0 nnn => cases h; exact toNat_byteWord_add_addrWord _ nnn
  case ret g =>
    obtain ⟨hpos, rfl⟩ | ⟨_, rfl⟩ := execRet_cases h
    · exact ⟨hpos, Vector.getElem?_eq_getElem (by omega)⟩
    · cases ht
  case seByte | sneByte | seReg | sneReg => cases h; exact State.skipIf_pc_of_ne hne
  case skp x g =>
    obtain ⟨_, rfl⟩ | ⟨_, rfl⟩ := execSkp_cases h
    · exact State.skipIf_pc_of_ne hne
    · cases ht
  case sknp x g =>
    obtain ⟨_, rfl⟩ | ⟨_, rfl⟩ := execSknp_cases h
    · exact State.skipIf_pc_of_ne hne
    · cases ht
  case ldVxK x =>
    obtain ⟨_, _, rfl⟩ | ⟨_, rfl⟩ := execLdVxK_cases h
    · exact absurd rfl hne
    · rfl
  all_goals
    obtain ⟨c, w, hc, rfl⟩ | hframe := exec_raise_or_frame h
    · exact absurd ht hc
    · exact absurd (congrArg State.pc hframe) hne

/-- Settles O22: a write of `V[X]` changes `VF` only where `X` is F, and so does the load of `V0` to `VX`, which ends at `X`. -/
theorem writersOfTheFlagRegister : Obligations.WritersOfTheFlagRegister := by
  intro i s t h hne
  cases i
  case ldByte | addByte | ldReg | orReg | andReg | xorReg | rnd | ldVxDt => cases h; exact State.eq_of_reg_setReg_ne hne
  case ldVxK x =>
    obtain ⟨_, _, rfl⟩ | ⟨_, rfl⟩ := execLdVxK_cases h
    · exact State.eq_of_reg_setReg_ne hne
    · exact absurd rfl hne
  case loadRegs x =>
    obtain ⟨_, rfl⟩ | ⟨_, rfl⟩ := execLoadRegs_cases h
    · refine (regNum_eq_regF_or_lt x).resolve_right fun hlt => hne ?_
      exact s.reg_loadFirstRegs_above _ hlt
    · exact absurd rfl hne
  case addReg | subReg | subn | shr | shl | drw => trivial
  all_goals
    obtain ⟨c, w, -, rfl⟩ | hframe := exec_raise_or_frame h
    · exact absurd rfl hne
    · exact absurd (State.reg_congr (congrArg State.v hframe) regF) hne

end Sys2Proof.Machine
end

section
/-! SUPPORT. The parts of the state that only some instructions read (spec/10_state.md R26, R29, R31): the call stack, the key snapshot and the random
byte. Another value there changes nothing else in what any other instruction, or its cycle, leaves. -/

namespace Sys2Proof.Machine

/-! ## A part of the state with another value -/

/-- The call stack, the key snapshot or the random byte, with a value for it. -/
inductive Part where
  /-- The entries of the call stack and `SP`. -/
  | stack (entries : Vector Word 16) (sp : Fin 17)
  /-- `KEYS`. -/
  | keys (k : BitVec 16)
  /-- `RND`. -/
  | rnd (r : Byte)

/-- `s` with that value in that part. -/
def State.put (s : State) : Part → State
  | .stack entries sp => { s with stack := entries, sp := sp }
  | .keys k => { s with keys := k }
  | .rnd r => { s with rnd := r }

/-- The instructions that read a part. -/
def Part.ReadBy : Part → Instr → Prop
  | .stack _ _, .call _ | .stack _ _, .ret _ => True
  | .keys _, .skp _ _ | .keys _, .sknp _ _ | .keys _, .ldVxK _ => True
  | .rnd _, .rnd _ _ => True
  | _, _ => False

section
variable (s t : State) (p : Part)

@[simp] theorem State.put_i : (s.put p).i = s.i := by cases p <;> rfl
@[simp] theorem State.put_mem : (s.put p).mem = s.mem := by cases p <;> rfl
@[simp] theorem State.put_err : (s.put p).err = s.err := by cases p <;> rfl
@[simp] theorem State.put_reg (r : RegNum) : (s.put p).reg r = s.reg r := by cases p <;> rfl

/-- A write of a register does not see the part. -/
theorem State.put_setReg (x : RegNum) (b : Byte) : (s.put p).setReg x b = (s.setReg x b).put p := by cases p <;> rfl

/-- Nor does a fault. -/
theorem State.put_raise (c : ErrCode) (w : Word) : (s.put p).raise c w = (s.raise c w).put p := by cases p <;> rfl

/-- Nor does the end of a cycle that completes. -/
theorem State.put_tick : (s.put p).tick = s.tick.put p := by cases p <;> rfl

/-- Nor does a block instruction. -/
theorem State.put_withBlock (n : Nat) : (s.put p).withBlock n (t.put p) = (s.withBlock n t).put p := by
  rcases s.withBlock_cases t n with ⟨hin, e⟩ | ⟨⟨hpos, hout⟩, e⟩
  · rw [e, State.withBlock_ok _ _ _ (by rwa [State.put_i])]
  · rw [e, State.withBlock_fault _ _ _ hpos (by rwa [State.put_i]), ← State.put_raise]
    cases p <;> rfl

/-- Nor does a load of registers. -/
theorem State.put_loadFirstRegs (a n : Nat) : (s.put p).loadFirstRegs a n = (s.loadFirstRegs a n).put p := by
  induction n with
  | zero => rfl
  | succ n ih => rw [State.loadFirstRegs, State.loadFirstRegs, ih, State.put_setReg, State.put_mem]

end

/-- A skip on a key sees `KEYS` only. -/
theorem State.put_skipKey (s : State) {p : Part} (hp : ∀ k, p ≠ .keys k) (x : RegNum) (b : Bool) :
    (s.put p).skipKey x b = (s.skipKey x b).put p := by
  by_cases hkey : (s.reg x).toNat ≤ 15
  · rw [State.skipKey_of_le hkey, State.skipKey_of_le (by rwa [State.put_reg]), State.put_reg]
    cases p
    case keys k => exact absurd rfl (hp k)
    all_goals rfl
  · have hout : 15 < (s.reg x).toNat := Nat.not_le.1 hkey
    rw [State.skipKey_fault hout, State.skipKey_fault (by rwa [State.put_reg]), State.put_reg, State.put_raise]

/-- An instruction that does not read a part leaves the same state whatever stands there, but for that part. -/
theorem exec_put {i : Instr} {p : Part} (hread : ¬ p.ReadBy i) (s : State) :
    ∃ t, exec i s = .next t ∧ exec i (s.put p) = .next (t.put p) := by
  obtain ⟨t, ht⟩ := exec_next i s
  refine ⟨t, ht, ?_⟩
  cases i
  case call nnn =>
    cases p
    case stack => exact absurd trivial hread
    all_goals
      obtain ⟨hroom, rfl⟩ | ⟨hfull, rfl⟩ := execCall_cases ht
      · exact exec_call_of_lt nnn (s := s.put _) (by exact hroom)
      · exact exec_call_full nnn hfull
  case ret g =>
    cases p
    case stack => exact absurd trivial hread
    all_goals
      obtain ⟨hpos, rfl⟩ | ⟨hempty, rfl⟩ := execRet_cases ht
      · exact exec_ret_of_pos g (s := s.put _) (by exact hpos)
      · exact exec_ret_empty g hempty
  case ldVxK x =>
    cases p
    case keys => exact absurd trivial hread
    all_goals
      obtain ⟨k, hscan, rfl⟩ | ⟨hscan, rfl⟩ := execLdVxK_cases ht
      · exact exec_ldVxK_of_some x hscan
      · exact exec_ldVxK_of_none x hscan
  case skp x g =>
    cases ht
    exact congrArg Host.Outcome.next (s.put_skipKey (by rintro k rfl; exact hread trivial) x true)
  case sknp x g =>
    cases ht
    exact congrArg Host.Outcome.next (s.put_skipKey (by rintro k rfl; exact hread trivial) x false)
  case drw x y n =>
    cases ht
    rw [← State.put_withBlock]
    cases p <;> rfl
  case ldB | storeRegs =>
    cases ht
    rw [← State.put_withBlock]
    cases p <;> rfl
  case loadRegs x =>
    cases ht
    rw [← State.put_withBlock, ← State.put_loadFirstRegs]
    cases p <;> rfl
  case rnd x kk =>
    cases ht
    cases p
    case rnd => exact absurd trivial hread
    all_goals rfl
  all_goals
    cases ht
    cases p <;> rfl

/-- The same of a whole cycle, for an input that the cycle samples: the states it leaves differ in that input at most. -/
theorem cycle_of_exec_put {s : State} (hrun : s.Running) {k k' : BitVec 16} {r r' : Byte} {p : Part}
    (hbegin : s.beginCycle k' r' = (s.beginCycle k r).put p) (hread : ¬ p.ReadBy s.current) :
    ∃ t t', cycle k r s = .next t ∧ cycle k' r' s = .next t' ∧ (t' = t ∨ t' = t.put p) := by
  obtain ⟨hok, hpc⟩ := hrun
  obtain ⟨t, ht, ht'⟩ := exec_put hread (s.beginCycle k r)
  rw [← hbegin] at ht'
  refine ⟨_, _, cycle_run k r s t hok hpc ht, cycle_run k' r' s _ hok hpc ht', ?_⟩
  rw [State.finishCycle_eq, State.finishCycle_eq, State.put_err, State.put_tick]
  split
  · exact .inr rfl
  · exact .inl rfl

/-! ## The obligations -/

/-- Settles O19: `SP` and the entries have their writers, and every instruction but those two is blind to the stack. -/
theorem onlyCallAndReturnReachTheStack : Obligations.OnlyCallAndReturnReachTheStack := by
  refine ⟨fun i s t h => ⟨writers_of_sp h, writers_of_stack h⟩, fun i s stack sp hcall hret => ?_⟩
  refine exec_put (p := .stack stack sp) ?_ s
  cases i
  case call nnn => exact absurd rfl (hcall nnn)
  case ret g => exact absurd rfl (hret g)
  all_goals exact not_false

/-- Settles O24: `KEYS` and `RND` are parts that only their instructions read, and a cycle samples each into its own field. -/
theorem inputsMatterOnlyToTheirInstructions : Obligations.InputsMatterOnlyToTheirInstructions := by
  refine fun s k k' r r' hrun => ⟨fun hkey => ?_, fun hrnd => ?_⟩
  · have hread : ¬ (Part.keys k').ReadBy s.current := by
      split at hkey <;> simp_all [Part.ReadBy]
    obtain ⟨t, t', ht, ht', rfl | rfl⟩ := cycle_of_exec_put (k := k) (r := r) hrun rfl hread
    all_goals exact ⟨_, _, ht, ht', rfl⟩
  · have hread : ¬ (Part.rnd r').ReadBy s.current := by
      split at hrnd <;> simp_all [Part.ReadBy]
    obtain ⟨t, t', ht, ht', rfl | rfl⟩ := cycle_of_exec_put (k := k) (r := r) hrun rfl hread
    all_goals exact ⟨_, _, ht, ht', rfl⟩

end Sys2Proof.Machine
end

section
/-! SUPPORT. What a step can do, said once, and the invariants of every step: canonical memory and a truthful latch (spec/20_memory.md R56,
60_exceptions.md R220, R226), the bound on `PC` (spec/10_state.md R24). -/

namespace Sys2Proof.Machine

/-! ## The step -/

/-- Everything a step can do: nothing on a halted core; the fetch's fault; the fault the table gives the instruction at `PC`, with `ERR` alone
changed; or the handler's effect and the tick, with the latch kept. -/
theorem step_cases {s t : State} (h : step s = .next t) :
    (s.err.code ≠ .noFault ∧ t = s) ∨
    (s.err.code = .noFault ∧ 0x0FFE < s.pc.toNat ∧ t = s.raiseFetch) ∨
    (s.Running ∧ ∃ c info, faultOf s.current s = some (c, info) ∧
      t = { s with err := { code := c, epc := s.pc, eop := s.fetchWord, info := info } }) ∨
    (s.Running ∧ ∃ u, exec s.current (s.beginCycle (Config.keySnapshot s.samples) (Config.randomByte s.draws)) = .next u ∧
      u.err = s.err ∧ t = u.tick) := by
  obtain hhalt | ⟨hok, hout, ht⟩ | ⟨hok, hpc, u, hu, ht⟩ := cycle_cases _ _ s t h
  · exact .inl hhalt
  · exact .inr (.inl ⟨hok, hout, ht⟩)
  · have hrun : s.Running := ⟨hok, hpc⟩
    cases hf : faultOf s.current s with
    | some entry =>
      rw [step_of_faultOf_eq_some hrun hf] at h
      exact .inr (.inr (.inl ⟨hrun, _, _, rfl, (Host.Outcome.next.inj h).symm⟩))
    | none =>
      have hfollows := exec_followsEntry hu
      rw [faultOf_beginCycle, show faultOf (decodeWord s.fetchWord) s = none from hf] at hfollows
      have herr : u.err = s.err := hfollows
      exact .inr (.inr (.inr ⟨hrun, u, hu, herr, ht.trans (s.finishCycle_ok u (by rw [herr, hok]))⟩))

/-- A step of a running core that takes no fault is the handler and the tick. -/
theorem step_completed {s t : State} (hrun : s.Running) (h : step s = .next t) (hok : t.err.code = .noFault) :
    ∃ u, exec s.current (s.beginCycle (Config.keySnapshot s.samples) (Config.randomByte s.draws)) = .next u ∧ t = u.tick := by
  obtain ⟨hhalt, -⟩ | ⟨-, hout, -⟩ | ⟨-, c, info, hf, rfl⟩ | ⟨-, u, hu, -, ht⟩ := step_cases h
  · exact absurd hrun.1 hhalt
  · exact absurd hrun.2 (Nat.not_le.2 hout)
  · exact absurd hok (faultOf_code_ne hf)
  · exact ⟨u, hu, ht⟩

/-! ## Memory stays canonical -/

/-- What the two stores leave in memory is a block of stores. -/
theorem exec_mem_eq_or_writeBytes {i : Instr} {s t : State} (h : exec i s = .next t) :
    t.mem = s.mem ∨ ∃ bs, t.mem = Memory.writeBytes s.mem s.i.toNat bs := by
  by_contra hno
  obtain ⟨hsame, hblock⟩ := not_or.1 hno
  obtain ⟨x, rfl⟩ | ⟨x, rfl⟩ := onlyTwoInstructionsStoreToMemory i s t h hsame
  · obtain ⟨-, rfl⟩ | ⟨-, rfl⟩ := execLdB_cases h
    · exact hblock ⟨_, rfl⟩
    · exact hsame rfl
  · obtain ⟨-, rfl⟩ | ⟨-, rfl⟩ := execStoreRegs_cases h
    · exact hblock ⟨_, rfl⟩
    · exact hsame rfl

/-- No handler breaks the canonical form. -/
theorem exec_keeps_wf {i : Instr} {s t : State} (h : exec i s = .next t) (hwf : Memory.wf s.mem = true) : Memory.wf t.mem = true := by
  obtain e | ⟨bs, e⟩ := exec_mem_eq_or_writeBytes h
  · rwa [e]
  · rw [e]
    exact Memory.wf_writeBytes hwf _ bs

/-! ## The latch stays truthful -/

/-- A clear latch is truthful. -/
theorem State.errTrue_of_eq_clear {s : State} (h : s.err = Err.clear) : s.ErrTrue := by
  have hcode : s.err.code = .noFault := by rw [h]; rfl
  refine ⟨fun _ => h, fun hne => absurd hcode hne, fun hfetch => ?_, fun hne => absurd hcode hne⟩
  rw [hcode] at hfetch
  cases hfetch

/-- The fetch's fault is no entry of the handlers' table. -/
theorem faultOf_code_ne_fetchRange {i : Instr} {s : State} {c : ErrCode} {info : Word} (h : faultOf i s = some (c, info)) :
    c ≠ .fetchRange := by
  rintro rfl
  cases i <;> simp [faultOf] at h

/-- The table of faults does not read the latch. -/
theorem faultOf_with_err (i : Instr) (s : State) (e : Err) : faultOf i { s with err := e } = faultOf i s := by
  cases i <;> rfl

/-- The fetch's fault leaves a truthful latch (R224). -/
theorem State.errTrue_raiseFetch {s : State} (h : 0x0FFE < s.pc.toNat) : s.raiseFetch.ErrTrue :=
  ⟨nofun, fun _ => rfl, fun _ => ⟨h, rfl, rfl⟩, fun _ hne => absurd rfl hne⟩

/-- A handler's fault leaves a truthful latch: the table reads the same of the state it leaves. -/
theorem State.errTrue_of_faultOf {s : State} {c : ErrCode} {info : Word} (h : faultOf s.current s = some (c, info)) :
    State.ErrTrue { s with err := { code := c, epc := s.pc, eop := s.fetchWord, info := info } } :=
  ⟨fun hc => absurd hc (faultOf_code_ne h), fun _ => rfl, fun hc => absurd hc (faultOf_code_ne_fetchRange h),
    fun _ _ => (faultOf_with_err _ _ _).trans h⟩

/-- Settles O13: a step that faults writes the truth into the latch and no memory; one that completes keeps the clear latch and stores in
memory, if at all, a block. -/
theorem everyStepKeepsMemoryAndLatchInvariant : Obligations.EveryStepKeepsMemoryAndLatchInvariant := by
  intro s t ⟨hwf, hlatch⟩ h
  obtain ⟨-, rfl⟩ | ⟨-, hout, rfl⟩ | ⟨-, c, info, hf, rfl⟩ | ⟨hrun, u, hu, herr, rfl⟩ := step_cases h
  · exact ⟨hwf, hlatch⟩
  · exact ⟨hwf, State.errTrue_raiseFetch hout⟩
  · exact ⟨hwf, State.errTrue_of_faultOf hf⟩
  · have hclear : s.err = Err.clear := hlatch.1 hrun.1
    have hwf' : Memory.wf u.mem = true := exec_keeps_wf hu hwf
    exact ⟨hwf', State.errTrue_of_eq_clear (herr.trans hclear)⟩

/-! ## `PC` stays bounded -/

/-- Every entry of the call stack is a return address of this machine: at most `0x1000`. -/
def State.StackBounded (s : State) : Prop := ∀ k : Fin 16, s.stack[k].toNat ≤ 0x1000

/-- A handler that runs at `PC` up to `0x1000` pushes nothing above it. -/
theorem exec_keeps_stackBounded {i : Instr} {s t : State} (h : exec i s = .next t) (hpc : s.pc.toNat ≤ 0x1000) (hs : s.StackBounded) :
    t.StackBounded := by
  by_cases hstack : t.stack = s.stack
  · intro k
    rw [hstack]
    exact hs k
  · obtain ⟨nnn, rfl⟩ := writers_of_stack h hstack
    obtain ⟨hroom, rfl⟩ | ⟨-, rfl⟩ := execCall_cases h
    · intro k
      show ((s.stack.set s.sp.val s.pc hroom)[k.val]).toNat ≤ 0x1000
      rw [Vector.getElem_set]
      split
      · exact hpc
      · exact hs k
    · exact hs

/-- A return pops an entry of the stack. -/
theorem State.StackBounded.of_getElem? {s : State} (hs : s.StackBounded) {k : Nat} {w : Word} (h : s.stack[k]? = some w) :
    w.toNat ≤ 0x1000 := by
  obtain ⟨hk, rfl⟩ := Vector.getElem?_eq_some_iff.1 h
  exact hs ⟨k, hk⟩

/-- A handler that raises nothing leaves `PC` at most `0x10FE`: where it stood, 2 from there, or where a jump, a call or a return goes. -/
theorem exec_pc_le {i : Instr} {s t : State} (h : exec i s = .next t) (hok : s.err.code = .noFault) (hok' : t.err.code = .noFault)
    (hlo : 2 ≤ s.pc.toNat) (hpc : s.pc.toNat ≤ 0x1000) (hs : s.StackBounded) : t.pc.toNat ≤ 0x10FE := by
  by_cases hne : t.pc = s.pc
  · rw [hne]; omega
  have hto := writersOfThePc i s t hok h hok' hne
  split at hto
  iterate 2 next nnn => have := nnn.isLt; omega
  next nnn => have := nnn.isLt; have := (s.reg 0).isLt; omega
  next => have := hs.of_getElem? hto.2; omega
  -- the six skips
  iterate 6 next => bv_omega
  -- the key wait
  next => bv_omega
  next => exact hto.elim

/-- Settles O15: the handler runs at the advanced `PC`, between 2 and `0x1000`; every other step leaves `PC` and the stack. -/
theorem everyStepKeepsPcBounded : Obligations.EveryStepKeepsPcBounded := by
  intro s t ⟨hpc, hstack⟩ h
  obtain ⟨-, rfl⟩ | ⟨-, -, rfl⟩ | ⟨-, c, info, -, rfl⟩ | ⟨hrun, u, hu, herr, rfl⟩ := step_cases h
  case inr.inr.inr =>
    have hnext : ∀ k r, (s.beginCycle k r).pc.toNat = s.pc.toNat + 2 := fun _ _ => hrun.toNat_pc_add_two
    obtain ⟨hok, hfetch⟩ := hrun
    have hstack' : u.StackBounded := exec_keeps_stackBounded hu (by rw [hnext]; omega) hstack
    have hpc' : u.pc.toNat ≤ 0x10FE := exec_pc_le hu hok (by rw [herr, hok]) (by rw [hnext]; omega) (by rw [hnext]; omega) hstack
    exact ⟨hpc', hstack'⟩
  all_goals exact ⟨hpc, hstack⟩

/-! ## Reset and launch -/

/-- A launch is reset with the image, if it is accepted, written into its memory. -/
theorem State.launch_cases (font : Vector Byte 80) (image : List Byte) :
    State.launch font image = { State.resetWith font with mem := Memory.writeBytes (State.resetWith font).mem progBase image } ∨
    State.launch font image = State.resetWith font := by
  by_cases hlen : image.length ≤ 3584
  · have hload := State.load_resetWith_of_length_le hlen font
    rw [State.load_of_length_le hlen] at hload
    exact .inl (Option.some.inj hload).symm
  · exact .inr (State.launch_of_length_gt (Nat.not_le.1 hlen) font)

/-- Settles O14: the font and the image are blocks of stores into canonical memory, and the latch is clear. -/
theorem memoryAndLatchInvariantAtLaunch : Obligations.MemoryAndLatchInvariantAtLaunch := by
  have hreset : ∀ font, (State.resetWith font).Inv := fun font =>
    ⟨Memory.wf_writeBytes Memory.wf_nil fontBase font.toList, State.errTrue_of_eq_clear rfl⟩
  refine ⟨⟨Memory.wf_nil, State.errTrue_of_eq_clear rfl⟩, hreset, fun font image => ?_⟩
  obtain ⟨hwf, hlatch⟩ := hreset font
  obtain e | e := State.launch_cases font image
  · rw [e]
    exact ⟨Memory.wf_writeBytes hwf progBase image, hlatch⟩
  · rw [e]
    exact ⟨hwf, hlatch⟩

/-- Settles O16: `PC` is `0x200` and every entry of the stack zero, and a load changes neither. -/
theorem pcBoundedAtLaunch : Obligations.PcBoundedAtLaunch := by
  have hpc : (0x200 : Word).toNat ≤ 0x10FE := by decide
  have hreset : ∀ font, (State.resetWith font).PcBounded := fun font =>
    ⟨hpc, fun k => by rw [State.stack_resetWith]; exact Nat.zero_le _⟩
  refine ⟨hreset (Vector.replicate 80 0), fun font image => ?_⟩
  obtain e | e := State.launch_cases font image
  all_goals
    rw [e]
    exact hreset font

end Sys2Proof.Machine
end

section
/-! SUPPORT. Whole steps and cycles: `OPCODE` and the timers after a completed one, the key wait without a key, the end of a run
(spec/40_cycle_and_dispatch.md R101, R105, 45_keypad_and_timers.md R202, 70_reset_and_hazards.md R262). -/

namespace Sys2Proof.Machine

/-! ## A completed step -/

/-- Settles O8: no handler writes `OPCODE`, so it is the word the cycle fetched. -/
theorem opcodeIsTheBigEndianWordAtPc : Obligations.OpcodeIsTheBigEndianWordAtPc := by
  intro s t hrun h hok
  obtain ⟨u, hu, rfl⟩ := step_completed hrun h hok
  obtain ⟨-, -, hop, -, -⟩ := inputsAreReadOnlyAndOneDrawForEachRandom _ _ _ hu
  have hword : u.opcode = s.fetchWord := hop
  rw [State.tick_opcode, hword]
  exact toNat_wordOfBytes _ _

/-- A step of a running core that takes a fault changes `ERR` alone. -/
theorem step_faulted {s t : State} (hrun : s.Running) (h : step s = .next t) (hfault : t.err.code ≠ .noFault) :
    t = { s with err := t.err } := by
  obtain ⟨hhalt, -⟩ | ⟨-, -, rfl⟩ | ⟨-, c, info, -, rfl⟩ | ⟨-, u, hu, herr, rfl⟩ := step_cases h
  · exact absurd hrun.1 hhalt
  · rfl
  · rfl
  · rw [State.tick_err, herr] at hfault
    exact absurd hrun.1 hfault

/-- Settles O11: the handler leaves each timer, unless it is the one that sets it, and the tick takes one from what it leaves. -/
theorem timersTickOnceInEveryCompletedCycle : Obligations.TimersTickOnceInEveryCompletedCycle := by
  refine fun s t hrun h => ⟨fun hok => ?_, fun hfault => ?_⟩
  · obtain ⟨u, hu, rfl⟩ := step_completed hrun h hok
    obtain ⟨-, hdt, hst⟩ := writersOfIndexAndTimers _ _ _ hu
    simp only [State.tick_dt, State.tick_st, toNat_tickByte, State.tick_reg]
    refine ⟨?_, ?_, fun x hx => ?_⟩
    · split
      next x hx => rw [hx] at hu; cases hu; rfl
      next hno =>
        have hkeep : u.dt = s.dt := not_not.1 fun hne => (hdt hne).elim hno
        rw [hkeep]
    · split
      next x hx => rw [hx] at hu; cases hu; rfl
      next hno =>
        have hkeep : u.st = s.st := not_not.1 fun hne => (hst hne).elim hno
        rw [hkeep]
    · rw [hx] at hu
      cases hu
      exact State.reg_setReg_same _ _ _
  · rw [step_faulted hrun h hfault]
    exact ⟨rfl, rfl⟩

/-! ## The key wait with no key -/

/-- Settles O53: the handler takes back the cycle's own advance of `PC`, and the tick follows. -/
theorem keyWaitCycleWithoutKeysOnlyTicks : Obligations.KeyWaitCycleWithoutKeysOnlyTicks := by
  intro x s r ⟨hok, hpc⟩ hcur
  have hback : s.pc + 2 - 2 = s.pc := BitVec.add_sub_cancel _ _
  have hexec : exec s.current (s.beginCycle 0 r) = .next { s.beginCycle 0 r with pc := s.pc } := by
    rw [hcur, exec_ldVxK_of_none x (State.lowestKey_eq_none_iff.2 rfl), State.beginCycle_pc, hback]
  refine ⟨_, (cycle_run 0 r s _ hok hpc hexec).trans (congrArg _ (s.finishCycle_ok _ hok)), rfl, ?_, ?_, rfl⟩
  · exact toNat_tickByte s.dt
  · exact toNat_tickByte s.st

/-! ## The end of a run -/

/-- Settles O59: the jump sets `PC` to what it was, so the word there is the same jump again. -/
theorem selfJumpIsAStableRest : Obligations.SelfJumpIsAStableRest := by
  rintro s ⟨⟨hok, hpc⟩, nnn, hword, htarget⟩
  have hsame : addrWord nnn = s.pc := BitVec.eq_of_toNat_eq ((toNat_addrWord nnn).trans htarget)
  have hexec : ∀ k r, exec (decodeWord s.fetchWord) (s.beginCycle k r) = .next { s.beginCycle k r with pc := s.pc } := by
    intro k r
    rw [hword, exec_jp, hsame]
  refine ⟨_, (cycle_run _ _ s _ hok hpc (hexec _ _)).trans (congrArg _ (s.finishCycle_ok _ hok)), ?_, rfl⟩
  exact ⟨⟨hok, hpc⟩, nnn, hword, htarget⟩

end Sys2Proof.Machine
end

section
/-! SUPPORT. The indexed jump, and the round trip of call and return (spec/41_control_flow.md R120, R122, R128). -/

namespace Sys2Proof.Machine

/-- The indexed jump (R128). -/
theorem exec_jpV0 (nnn : Addr) (s : State) : exec (.jpV0 nnn) s = .next { s with pc := byteWord (s.reg 0) + addrWord nnn } := rfl

/-- Settles O26: the sum fits in 16 bits. -/
theorem indexedJumpAddsV0 : Obligations.IndexedJumpAddsV0 :=
  ⟨fun _ => decodeWord_eq_jpV0, fun nnn s => ⟨_, exec_jpV0 nnn s, toNat_byteWord_add_addrWord _ nnn, rfl⟩⟩

/-- Settles O29: the entry under the new `SP` is the one the call pushed. -/
theorem returnAfterCallComesBack : Obligations.ReturnAfterCallComesBack := by
  intro nnn g s t r hroom ht hstack hsp
  rw [exec_call_of_lt nnn hroom] at ht
  cases ht
  have hdepth : r.sp.val = s.sp.val + 1 := by rw [hsp]
  refine ⟨_, exec_ret_of_pos g (by omega), ?_, ?_⟩
  · simp [hstack, hdepth]
  · simp [hdepth]

end Sys2Proof.Machine
end

section
/-! SUPPORT. Reset with the default font (spec/10_state.md R36): memory in its canonical form lists no cell that holds its reset contents. -/

namespace Sys2Proof.Machine

/-- A block of stores of the reset contents into memory at its reset contents lists nothing. -/
theorem Memory.writeBytes_nil_of_initial : ∀ (bs : List Byte) (a : Nat),
    (∀ (k : Nat) (b : Byte), bs[k]? = some b → b = Memory.initial (a + k)) → Memory.writeBytes [] a bs = []
  | [], _, _ => rfl
  | b :: bs, a, h => by
    have hhead : b = Memory.initial a := h 0 b rfl
    have hwrite : Memory.write [] a b = [] := by
      simp [Memory.write, Memory.insert, hhead]
    rw [Memory.writeBytes, hwrite]
    refine Memory.writeBytes_nil_of_initial bs (a + 1) fun k c hk => ?_
    rw [h (k + 1) c hk, Nat.add_right_comm, Nat.add_assoc]

/-- In the font area the reset contents are the default font. -/
theorem Memory.initial_font {k : Nat} {b : Byte} (h : defaultFont[k]? = some b) : Memory.initial (fontBase + k) = b := by
  obtain ⟨hk, rfl⟩ := List.getElem?_eq_some_iff.1 h
  have harea : fontBase ≤ fontBase + k ∧ fontBase + k < fontBase + fontSize := ⟨Nat.le_add_right _ _, Nat.add_lt_add_left hk _⟩
  rw [Memory.initial, if_pos harea, Nat.add_sub_cancel_left, List.getD_eq_getElem _ _ hk]

/-- Settles O57: every byte stored is the one an unlisted address reads as. -/
theorem resetIsResetWithTheDefaultFont : Obligations.ResetIsResetWithTheDefaultFont := by
  intro font hfont
  have hmem : Memory.writeBytes [] fontBase defaultFont = [] :=
    Memory.writeBytes_nil_of_initial _ _ fun _ _ hk => (Memory.initial_font hk).symm
  rw [State.resetWith, hfont, State.reset, hmem]

end Sys2Proof.Machine
end

section
/-! SUPPORT. Family 8 (spec/42_alu.md section 3, R144 to R152): the moves and the logic write one register; the others write the flag and then the
result, from the registers as the flag write leaves them (R141). -/

namespace Sys2Proof.Machine

/-! ## The handlers -/

/-- The move (R144). -/
theorem exec_ldReg (x y : RegNum) (s : State) : exec (.ldReg x y) s = .next (s.setReg x (s.reg y)) := rfl

/-- The or (R145). -/
theorem exec_orReg (x y : RegNum) (s : State) : exec (.orReg x y) s = .next (s.setReg x (s.reg x ||| s.reg y)) := rfl

/-- The and (R146). -/
theorem exec_andReg (x y : RegNum) (s : State) : exec (.andReg x y) s = .next (s.setReg x (s.reg x &&& s.reg y)) := rfl

/-- The exclusive or (R147). -/
theorem exec_xorReg (x y : RegNum) (s : State) : exec (.xorReg x y) s = .next (s.setReg x (s.reg x ^^^ s.reg y)) := rfl

/-- The sum with a carry (R148). -/
theorem exec_addReg (x y : RegNum) (s : State) : exec (.addReg x y) s =
    .next ((s.setFlag (carryOut (s.reg x) (s.reg y))).setReg x (BitVec.ofNat 8 (sum9 (s.reg x) (s.reg y)))) := rfl

/-- The difference (R149). -/
theorem exec_subReg (x y : RegNum) (s : State) : exec (.subReg x y) s =
    .next ((s.setFlag (strictlyGreater (s.reg x) (s.reg y))).setReg x
      ((s.setFlag (strictlyGreater (s.reg x) (s.reg y))).reg x - (s.setFlag (strictlyGreater (s.reg x) (s.reg y))).reg y)) := rfl

/-- The reverse difference (R151). -/
theorem exec_subn (x y : RegNum) (s : State) : exec (.subn x y) s =
    .next ((s.setFlag (strictlyGreater (s.reg y) (s.reg x))).setReg x
      ((s.setFlag (strictlyGreater (s.reg y) (s.reg x))).reg y - (s.setFlag (strictlyGreater (s.reg y) (s.reg x))).reg x)) := rfl

/-- The shift to the right (R150). -/
theorem exec_shr (x y : RegNum) (s : State) : exec (.shr x y) s =
    .next ((s.setFlag (lowBit (s.reg x))).setReg x ((s.setFlag (lowBit (s.reg x))).reg x >>> 1)) := rfl

/-- The shift to the left (R152). -/
theorem exec_shl (x y : RegNum) (s : State) : exec (.shl x y) s =
    .next ((s.setFlag (highBit (s.reg x))).setReg x ((s.setFlag (highBit (s.reg x))).reg x <<< 1)) := rfl

/-! ## The flag and then a register -/

section
variable (s : State) (c : Bool) (x : RegNum) (b : Byte)

/-- The flag stays where the result goes to another register. -/
theorem State.reg_regF_setFlag_setReg (hx : x ≠ regF) : ((s.setFlag c).setReg x b).reg regF = flagByte c := by
  rw [State.reg_setReg_ne _ _ hx.symm, State.reg_setFlag_same]

/-- Every register that is neither the destination nor `VF` stays. -/
theorem State.reg_setFlag_setReg_ne {r : RegNum} (hx : r ≠ x) (hf : r ≠ regF) : ((s.setFlag c).setReg x b).reg r = s.reg r := by
  rw [State.reg_setReg_ne _ _ hx, State.reg_setFlag_ne _ _ hf]

/-- Nothing but `V` is written. -/
theorem State.setFlag_setReg_frame : (s.setFlag c).setReg x b = { s with v := ((s.setFlag c).setReg x b).v } := rfl

/-- An operand as a number after the flag write: the flag itself where the operand is `VF`. -/
theorem State.toNat_reg_setFlag (r : RegNum) :
    ((s.setFlag c).reg r).toNat = if r = regF then (if c then 1 else 0) else (s.reg r).toNat := by
  rw [State.reg_setFlag]
  split
  · exact toNat_flagByte c
  · rfl

end

/-! ## The arithmetic -/

/-- The difference of two bytes, with 256 added first so that nothing is cut off. -/
theorem toNat_byte_sub (a b : Byte) : (a - b).toNat = (256 + a.toNat - b.toNat) % 256 := by
  bv_omega

/-- The flag of a condition. -/
theorem flagByte_decide (p : Prop) [Decidable p] : flagByte (decide p) = if p then 1 else 0 := by
  by_cases h : p <;> simp [flagByte, h]

/-- The flag of a subtraction as a number. -/
theorem ite_strictlyGreater (a b : Byte) : (if strictlyGreater a b then 1 else 0) = if b.toNat < a.toNat then 1 else 0 := by
  simp [strictlyGreater]

/-- A byte shifted to the right by one. -/
theorem toNat_byte_shr (b : Byte) : (b >>> 1).toNat = b.toNat / 2 := by
  rw [BitVec.toNat_ushiftRight, Nat.shiftRight_eq_div_pow]

/-- A byte shifted to the left by one. -/
theorem toNat_byte_shl (b : Byte) : (b <<< 1).toNat = 2 * b.toNat % 256 := by
  rw [BitVec.toNat_shiftLeft, Nat.shiftLeft_eq, Nat.mul_comm]

/-! ## The obligations -/

/-- Settles O35: each handler is one write of `V[X]`, of a value that is computed bit by bit. -/
theorem moveAndLogicActBitByBit : Obligations.MoveAndLogicActBitByBit := by
  refine ⟨fun w hT => ⟨decodeWord_eq_ldReg hT, decodeWord_eq_orReg hT, decodeWord_eq_andReg hT, decodeWord_eq_xorReg hT⟩, fun x y s => ?_⟩
  have hothers : ∀ b r, r ≠ x → (s.setReg x b).reg r = s.reg r := fun b r hr => s.reg_setReg_ne b hr
  refine ⟨⟨_, exec_ldReg x y s, s.reg_setReg_same x _, hothers _, s.setReg_frame x _⟩,
    ⟨_, exec_orReg x y s, fun k => ?_, hothers _, s.setReg_frame x _⟩,
    ⟨_, exec_andReg x y s, fun k => ?_, hothers _, s.setReg_frame x _⟩,
    ⟨_, exec_xorReg x y s, fun k => ?_, hothers _, s.setReg_frame x _⟩⟩
  · rw [State.reg_setReg_same, BitVec.getLsbD_or]
  · rw [State.reg_setReg_same, BitVec.getLsbD_and]
  · rw [State.reg_setReg_same, BitVec.getLsbD_xor]

/-- Settles O36: the sum is formed before the flag is written and stored after it. -/
theorem addWithCarryOut : Obligations.AddWithCarryOut := by
  refine ⟨fun w => decodeWord_eq_addReg, fun x y s => ⟨_, exec_addReg x y s, ?_, fun hx => ?_,
    fun r hx hf => s.reg_setFlag_setReg_ne _ _ _ hx hf, s.setFlag_setReg_frame _ _ _⟩⟩
  · rw [State.reg_setReg_same, BitVec.toNat_ofNat, sum9]
  · rw [s.reg_regF_setFlag_setReg _ _ _ hx, carryOut, flagByte_decide, sum9]

/-- Settles O37: the operands are read after the flag write, so the flag stands in for the one that is `VF`. -/
theorem subtractWritesTheFlagFirst : Obligations.SubtractWritesTheFlagFirst := by
  refine ⟨fun w => decodeWord_eq_subReg, fun x y s => ⟨_, exec_subReg x y s, ⟨?_, fun hx => ?_⟩,
    fun r hx hf => s.reg_setFlag_setReg_ne _ _ _ hx hf, s.setFlag_setReg_frame _ _ _⟩⟩
  · simp only [State.reg_setReg_same, toNat_byte_sub, State.toNat_reg_setFlag, ite_strictlyGreater]
  · rw [s.reg_regF_setFlag_setReg _ _ _ hx, toNat_flagByte, ite_strictlyGreater]

/-- Settles O38: as the subtraction, with the operands in the other order. -/
theorem reverseSubtractWritesTheFlagFirst : Obligations.ReverseSubtractWritesTheFlagFirst := by
  refine ⟨fun w => decodeWord_eq_subn, fun x y s => ⟨_, exec_subn x y s, ⟨?_, fun hx => ?_⟩,
    fun r hx hf => s.reg_setFlag_setReg_ne _ _ _ hx hf, s.setFlag_setReg_frame _ _ _⟩⟩
  · simp only [State.reg_setReg_same, toNat_byte_sub, State.toNat_reg_setFlag, ite_strictlyGreater]
  · rw [s.reg_regF_setFlag_setReg _ _ _ hx, toNat_flagByte, ite_strictlyGreater]

/-- Settles O39: away from `VF` the shift does not meet the flag; a shift of `VF` itself shifts the flag, whose only bit is bit 0. -/
theorem shiftsMoveOneBitAndIgnoreVy : Obligations.ShiftsMoveOneBitAndIgnoreVy := by
  refine ⟨fun w => decodeWord_eq_shr, fun w => decodeWord_eq_shl, fun x y s =>
    ⟨⟨_, exec_shr x y s, fun hx => ⟨?_, ?_⟩, ?_, fun r hx hf => s.reg_setFlag_setReg_ne _ _ _ hx hf, s.setFlag_setReg_frame _ _ _⟩,
      ⟨_, exec_shl x y s, fun hx => ⟨?_, ?_⟩, ?_, fun r hx hf => s.reg_setFlag_setReg_ne _ _ _ hx hf, s.setFlag_setReg_frame _ _ _⟩⟩⟩
  · rw [State.reg_setReg_same, State.reg_setFlag_ne s _ hx, toNat_byte_shr]
  · rw [s.reg_regF_setFlag_setReg _ _ _ hx, toNat_flagByte_lowBit]
  · rintro rfl
    rw [State.reg_setReg_same, State.reg_setFlag_same]
    cases lowBit (s.reg regF) <;> rfl
  · rw [State.reg_setReg_same, State.reg_setFlag_ne s _ hx, toNat_byte_shl]
  · rw [s.reg_regF_setFlag_setReg _ _ _ hx, toNat_flagByte_highBit]
  · rintro rfl
    rw [State.reg_setReg_same, State.reg_setFlag_same, toNat_byte_shl, toNat_flagByte_highBit]
    have := (s.reg regF).isLt
    omega

end Sys2Proof.Machine
end

section
/-! SUPPORT. The index register and the register transfers (spec/43_index_and_memory.md R170 to R176), and that a store is seen by the next fetch
(spec/20_memory.md R61). -/

namespace Sys2Proof.Machine

/-! ## The index register -/

/-- The load of `I` (R170). -/
theorem exec_ldI (nnn : Addr) (s : State) : exec (.ldI nnn) s = .next { s with i := addrWord nnn } := rfl

/-- The add to `I` (R171). -/
theorem exec_addI (x : RegNum) (s : State) : exec (.addI x) s = .next { s with i := s.i + byteWord (s.reg x) } := rfl

/-- The address of a glyph (R173). -/
theorem exec_ldF (x : RegNum) (s : State) : exec (.ldF x) s = .next { s with i := BitVec.ofNat 16 (fontBase + 5 * (s.reg x).toNat) } := rfl

/-- Settles O41: the operands are zero-extended, the sum is taken modulo 65536, and a glyph's address, at most `0x050 + 5 * 255`, fits. -/
theorem indexIsSetAddedToOrPointedAtAGlyph : Obligations.IndexIsSetAddedToOrPointedAtAGlyph := by
  refine ⟨fun w => decodeWord_eq_ldI, fun w hT => ⟨decodeWord_eq_addI hT, decodeWord_eq_ldF hT⟩,
    fun nnn s => ⟨_, exec_ldI nnn s, toNat_addrWord nnn, rfl⟩, fun x s => ⟨_, exec_addI x s, ?_, rfl⟩,
    fun x s => ⟨_, exec_ldF x s, ?_, rfl⟩⟩
  · show (s.i + byteWord (s.reg x)).toNat = _
    rw [BitVec.toNat_add, toNat_byteWord]
  · have hb := (s.reg x).isLt
    show (BitVec.ofNat 16 (fontBase + 5 * (s.reg x).toNat)).toNat = _
    rw [BitVec.toNat_ofNat, fontBase]
    omega

/-! ## The register transfers -/

section
variable (x : RegNum) {s : State}

/-- The store of `V0` to `VX` with its addresses in memory. -/
theorem exec_storeRegs_of_lt (h : s.i.toNat + x.toNat < memSize) :
    exec (.storeRegs x) s = .next { s with mem := Memory.writeBytes s.mem s.i.toNat (s.firstRegs (x.toNat + 1)) } := by
  rw [exec, execStoreRegs, State.withBlock_ok s _ _ (.inr h)]

/-- The store with an address outside memory (R223). -/
theorem exec_storeRegs_fault (h : memSize ≤ s.i.toNat + x.toNat) :
    exec (.storeRegs x) s = .next (s.raise .memRange s.memRangeInfo) := by
  rw [exec, execStoreRegs, State.withBlock_fault s _ _ (Nat.succ_pos _) (Nat.lt_succ_of_le h)]

/-- The load of `V0` to `VX` with its addresses in memory. -/
theorem exec_loadRegs_of_lt (h : s.i.toNat + x.toNat < memSize) :
    exec (.loadRegs x) s = .next (s.loadFirstRegs s.i.toNat (x.toNat + 1)) := by
  rw [exec, execLoadRegs, State.withBlock_ok s _ _ (.inr h)]

/-- The load with an address outside memory (R223). -/
theorem exec_loadRegs_fault (h : memSize ≤ s.i.toNat + x.toNat) :
    exec (.loadRegs x) s = .next (s.raise .memRange s.memRangeInfo) := by
  rw [exec, execLoadRegs, State.withBlock_fault s _ _ (Nat.succ_pos _) (Nat.lt_succ_of_le h)]

end

/-- The load of `V0` to `VX` gives each of them its byte. -/
theorem State.reg_loadFirstRegs_upto (s : State) (a : Nat) {x r : RegNum} (h : r.toNat ≤ x.toNat) :
    (s.loadFirstRegs a (x.toNat + 1)).reg r = Memory.read s.mem (a + r.toNat) := by
  rw [State.reg_loadFirstRegs s a _ x.isLt, if_pos (Nat.lt_succ_of_le h)]

/-- Settles O43: the handler is one store of the list of registers behind the range test. -/
theorem storeRegistersAtI : Obligations.StoreRegistersAtI := by
  refine ⟨fun w => decodeWord_eq_storeRegs, fun x s hout => ?_, fun x s hwf hin => ?_⟩
  · rw [exec_storeRegs_fault x (Nat.succ_le_of_lt hout), State.raise_memRange_eq]
  · have hlt : s.i.toNat + x.toNat < memSize := Nat.lt_succ_of_le hin
    have hlen : (s.firstRegs (x.toNat + 1)).length = x.toNat + 1 := s.length_firstRegs _ x.isLt
    refine ⟨_, exec_storeRegs_of_lt x hlt, fun r hr => ?_, fun a ha => ?_, rfl⟩
    · exact Memory.read_writeBytes_inside _ hwf _ _ (by omega) (s.getElem?_firstRegs _ r (Nat.lt_succ_of_le hr))
    · exact Memory.read_writeBytes_outside _ _ _ (by omega)

/-- Settles O44: the handler is one load behind the range test. -/
theorem loadRegistersFromI : Obligations.LoadRegistersFromI := by
  refine ⟨fun w => decodeWord_eq_loadRegs, fun x s hout => ?_, fun x s hin => ?_⟩
  · rw [exec_loadRegs_fault x (Nat.succ_le_of_lt hout), State.raise_memRange_eq]
  · exact ⟨_, exec_loadRegs_of_lt x (Nat.lt_succ_of_le hin), fun r hr => s.reg_loadFirstRegs_upto _ hr,
      fun r hr => s.reg_loadFirstRegs_above _ hr, s.loadFirstRegs_frame _ _⟩

/-- Settles O45: the load reads back the bytes the store wrote. -/
theorem loadAfterStoreRestoresTheRegisters : Obligations.LoadAfterStoreRestoresTheRegisters := by
  intro x s t m u hwf hin ht hmem hi hu r hr
  obtain ⟨t', ht', hstored, -, hframe⟩ := storeRegistersAtI.2.2 x s hwf hin
  obtain rfl : t = t' := Host.Outcome.next.inj (ht.symm.trans ht')
  have hsame : m.i = s.i := by rw [hi, hframe]
  obtain ⟨u', hu', hloaded, -, -⟩ := loadRegistersFromI.2.2 x m (by rwa [hsame])
  obtain rfl : u = u' := Host.Outcome.next.inj (hu.symm.trans hu')
  rw [hloaded r hr, hmem, hsame, hstored r hr]

/-- The word the fetch reads, as a number (R52). -/
theorem State.toNat_fetchWord (s : State) :
    s.fetchWord.toNat = 256 * (Memory.read s.mem s.pc.toNat).toNat + (Memory.read s.mem (s.pc.toNat + 1)).toNat :=
  toNat_wordOfBytes _ _

/-- Settles O47: the store leaves the latch, so the step completes with the stored memory and `PC` at the stored bytes. -/
theorem storeIsSeenByTheNextFetch : Obligations.StoreIsSeenByTheNextFetch := by
  rintro x s t ⟨hwf, -⟩ ⟨hok, hpc⟩ hcur hx hin hi ht
  obtain ⟨u, hu, hstored, -, hframe⟩ :=
    storeRegistersAtI.2.2 x (s.beginCycle (Config.keySnapshot s.samples) (Config.randomByte s.draws)) hwf hin
  rw [← hcur] at hu
  have hok' : u.err.code = .noFault := by rw [hframe]; exact hok
  have hpc' : u.pc = s.i := by rw [hframe]; exact hi.symm
  rw [step_eq, cycle_run _ _ s u hok hpc hu, State.finishCycle_ok s u hok'] at ht
  cases ht
  refine ⟨hpc', ?_⟩
  have hhi : Memory.read u.mem s.i.toNat = s.reg 0 := hstored 0 (Nat.zero_le _)
  have hlo : Memory.read u.mem (s.i.toNat + 1) = s.reg 1 := hstored 1 hx
  rw [State.toNat_fetchWord, State.tick_pc, State.tick_mem, hpc', hhi, hlo]

end Sys2Proof.Machine
end

section
/-! SUPPORT. The sprite draw (spec/44_display.md R191 to R193), pixel by pixel. -/

namespace Sys2Proof.Machine

/-! ## The pixels of a sprite -/

/-- A pixel of the sprite's rectangle is toggled exactly when its bit is set: row `r` is byte `r`, column `c` its bit `7 - c` (R191). -/
theorem Screen.spriteHit_readBytes (m : Memory) (a : Nat) {n r c : Nat} (x0 y0 : Nat) (hn : n ≤ 32) (hr : r < n) (hc : c < 8) :
    Screen.spriteHit (Memory.readBytes m a n) x0 y0 (wrapRow (y0 + r)) (wrapCol (x0 + c)) = (Memory.read m (a + r)).getLsbD (7 - c) := by
  have hrow := (Screen.row_eq_iff y0 (Nat.lt_of_lt_of_le hr hn) (wrapRow (y0 + r))).1 rfl
  have hcol := (Screen.col_eq_iff x0 (Nat.lt_trans hc (by decide)) (wrapCol (x0 + c))).1 rfl
  rw [Screen.spriteHit, hrow, Memory.getElem?_readBytes m n a r hr]
  simp only [Screen.colHit, hcol, hc, decide_true, Bool.true_and]

/-- Every pixel the sprite toggles is one of its rectangle. -/
theorem Screen.exists_of_spriteHit {m : Memory} {a n x0 y0 : Nat} {py : Fin 32} {px : Fin 64}
    (h : Screen.spriteHit (Memory.readBytes m a n) x0 y0 py px = true) :
    ∃ r c, r < n ∧ c < 8 ∧ py = wrapRow (y0 + r) ∧ px = wrapCol (x0 + c) := by
  unfold Screen.spriteHit at h
  split at h
  next b hb =>
    obtain ⟨hlen, -⟩ := List.getElem?_eq_some_iff.1 hb
    rw [Memory.length_readBytes] at hlen
    obtain ⟨hc, -⟩ := Bool.and_eq_true_iff.1 h
    refine ⟨_, _, hlen, of_decide_eq_true hc, ?_, ?_⟩
    · exact (Screen.row_eq_iff y0 (Nat.mod_lt _ (by decide)) py).2 rfl
    · exact (Screen.col_eq_iff x0 (Nat.mod_lt _ (by decide)) px).2 rfl
  next => cases h

/-- Two sprites with the same bytes are the same list of bytes. -/
theorem Memory.readBytes_congr {m m' : Memory} : ∀ {n a : Nat},
    (∀ r, r < n → Memory.read m' (a + r) = Memory.read m (a + r)) → Memory.readBytes m' a n = Memory.readBytes m a n
  | 0, _, _ => rfl
  | n + 1, a, h => by
    have hhead : Memory.read m' a = Memory.read m a := h 0 (Nat.succ_pos n)
    have htail : Memory.readBytes m' (a + 1) n = Memory.readBytes m (a + 1) n := by
      refine Memory.readBytes_congr fun r hr => ?_
      rw [Nat.add_right_comm]
      exact h (r + 1) (Nat.succ_lt_succ hr)
    rw [Memory.readBytes, Memory.readBytes, hhead, htail]

/-! ## The draw -/

section
variable (s : State) (x0 y0 : Nat) (n : Nibble)

/-- A sprite has at most 15 rows. -/
theorem length_sprite_le : (Memory.readBytes s.mem s.i.toNat n.toNat).length ≤ 32 := by
  have := n.isLt
  rw [Memory.length_readBytes]
  omega

/-- Every pixel after the draw. -/
theorem State.pixel_drawn (py : Fin 32) (px : Fin 64) : Screen.pixel (s.drawn x0 y0 n.toNat).1 py px =
    xor (Screen.pixel s.fb py px) (Screen.spriteHit (Memory.readBytes s.mem s.i.toNat n.toNat) x0 y0 py px) :=
  Screen.pixel_drawRows x0 py px _ _ _ (length_sprite_le s n)

/-- The collision: a pixel that was on is off (R192). -/
theorem State.collision_drawn : (s.drawn x0 y0 n.toNat).2 = true ↔
    ∃ py px, Screen.pixel s.fb py px = true ∧ Screen.pixel (s.drawn x0 y0 n.toNat).1 py px = false := by
  rw [State.drawn, Screen.flag_drawRows x0 _ _ _ (length_sprite_le s n)]
  simp only [Bool.false_eq_true, false_or]
  refine exists_congr fun py => exists_congr fun px => ?_
  have hpixel := s.pixel_drawn x0 y0 n py px
  rw [State.drawn] at hpixel
  rw [hpixel]
  generalize Screen.spriteHit _ _ _ _ _ = hit
  generalize Screen.pixel s.fb py px = old
  cases hit <;> cases old <;> simp

end

/-- A draw with its block in memory. -/
theorem exec_drw_of_le (x y : RegNum) {n : Nibble} {s : State} (h : n.toNat = 0 ∨ s.i.toNat + n.toNat ≤ memSize) :
    exec (.drw x y n) s = .next
      { s.setFlag (s.drawn ((s.reg x).toNat % 64) ((s.reg y).toNat % 32) n.toNat).2 with
        fb := (s.drawn ((s.reg x).toNat % 64) ((s.reg y).toNat % 32) n.toNat).1 } := by
  rw [exec, execDrw, State.withBlock_ok s _ _ h]

/-- A draw with an address outside memory (R223). -/
theorem exec_drw_fault (x y : RegNum) {n : Nibble} {s : State} (h0 : 0 < n.toNat) (h : memSize < s.i.toNat + n.toNat) :
    exec (.drw x y n) s = .next (s.raise .memRange s.memRangeInfo) := by
  rw [exec, execDrw, State.withBlock_fault s _ _ h0 h]

/-- The flag byte is 1 exactly when the flag is set. -/
theorem flagByte_eq_one_iff (c : Bool) : flagByte c = 1 ↔ c = true := by
  cases c <;> decide

/-! ## The obligations -/

/-- Settles O49: the draw XORs each pixel with the sprite's bit there, which is 0 outside the rectangle, and the flag is the collision. -/
theorem drawXorsTheSpriteAndReportsACollision : Obligations.DrawXorsTheSpriteAndReportsACollision := by
  refine ⟨fun w => decodeWord_eq_drw, fun x y n s hpos hout => ?_, fun x y n s hin => ?_⟩
  · have hpast : memSize < s.i.toNat + n.toNat := by simp only [memSize]; omega
    rw [exec_drw_fault x y hpos hpast, State.raise_memRange_eq]
  have hok : n.toNat = 0 ∨ s.i.toNat + n.toNat ≤ memSize := by simp only [memSize]; omega
  have hrows : n.toNat ≤ 32 := Nat.le_trans (Nat.le_of_lt n.isLt) (by decide)
  have hpixel := s.pixel_drawn ((s.reg x).toNat % 64) ((s.reg y).toNat % 32) n
  have hflag : ∀ fb, State.reg { s.setFlag (s.drawn ((s.reg x).toNat % 64) ((s.reg y).toNat % 32) n.toNat).2 with fb := fb } regF =
      flagByte (s.drawn ((s.reg x).toNat % 64) ((s.reg y).toNat % 32) n.toNat).2 := fun _ => State.reg_setFlag_same _ _
  refine ⟨_, exec_drw_of_le x y hok, fun r c hr hc => ?_, fun py px hno => ?_, ?_, ?_, fun r hr => ?_, rfl⟩
  · rw [hpixel, Screen.spriteHit_readBytes _ _ _ _ hrows hr hc]
  · have hmiss : Screen.spriteHit (Memory.readBytes s.mem s.i.toNat n.toNat) ((s.reg x).toNat % 64) ((s.reg y).toNat % 32) py px = false := by
      by_contra hhit
      obtain ⟨r, c, hr, hc, hpy, hpx⟩ := Screen.exists_of_spriteHit (Bool.eq_true_of_not_eq_false hhit)
      exact hno r c hr hc ⟨hpy, hpx⟩
    rw [hpixel, hmiss, Bool.xor_false]
  · rw [hflag]
    cases (s.drawn ((s.reg x).toNat % 64) ((s.reg y).toNat % 32) n.toNat).2
    · exact .inl rfl
    · exact .inr rfl
  · rw [hflag, flagByte_eq_one_iff]
    exact s.collision_drawn _ _ n
  · exact s.reg_setFlag_ne _ hr

/-- Settles O50: the two draws XOR every pixel with the same bit, which cancels. -/
theorem drawTwiceRestoresTheScreen : Obligations.DrawTwiceRestoresTheScreen := by
  intro x y n s t m u hin ht hfb hi hbytes hx hy hu
  have hok : n.toNat = 0 ∨ s.i.toNat + n.toNat ≤ memSize := by simp only [memSize]; omega
  rw [exec_drw_of_le x y hok] at ht
  rw [exec_drw_of_le x y (by rwa [hi]), hx, hy] at hu
  cases ht
  cases hu
  refine Screen.ext_pixel fun py px => ?_
  have hsprite : Memory.readBytes m.mem m.i.toNat n.toNat = Memory.readBytes s.mem s.i.toNat n.toNat := by
    rw [hi]
    exact Memory.readBytes_congr hbytes
  show Screen.pixel (m.drawn _ _ n.toNat).1 py px = _
  rw [State.pixel_drawn, hsprite, hfb]
  show xor (Screen.pixel (s.drawn _ _ n.toNat).1 py px) _ = _
  rw [State.pixel_drawn, Bool.xor_assoc, Bool.xor_self, Bool.xor_false]

end Sys2Proof.Machine
end
